-- ==== Sys2Proof/Word.lean ====
section
/-! DEFINITION. The widths of the block's values (00_scope.md R7, R8; 10_state.md R33). -/

namespace Sys2Proof

/-- One byte of the command stream, one 8-bit character code (30_encoding.md R71, R78). -/
abbrev Byte := BitVec 8

/-- The lines of one segment group, GW = 8 bits (00_scope.md R7; 10_state.md R35). -/
abbrev Lines := BitVec 8

/-- An unsigned sample, SW = 16 bits (00_scope.md R7; 43_sample_filter.md R160). -/
abbrev Sample := BitVec 16

/-- The operand of `render_int`, VW = 16 bits, read as two's complement (00_scope.md R7). -/
abbrev Value := BitVec 16

/-- The glyph field of a slot, 6 bits (10_state.md R22). -/
abbrev GlyphNum := BitVec 6

/-- A register that counts 0, 1, 2: SCAN and WCUR, 2 bits (10_state.md R31, R32). -/
abbrev Counter := BitVec 2

/-- ANODE, 3 bits, bit `i` selects digit `i` (10_state.md R36). -/
abbrev Anode := BitVec 3

/-- The averaging accumulator, AW = 18 bits (00_scope.md R7; 43_sample_filter.md R166). -/
abbrev Accumulator := BitVec 18

/-- The blank sentinel 32, "no segments lit" (10_state.md R22). -/
def blankGlyph : GlyphNum := 32

/-- The number of entries of the glyph table, NGLYPH = 18 (00_scope.md R6). -/
abbrev glyphCount : Nat := 18

end Sys2Proof
end

