-- ==== Sys2Proof/Syntax.lean ====
section
/-! DEFINITION. The seven operations of the block, one constructor per row of spec/opcode_table.json
(30_encoding.md R70), with decoded operands (R81). -/

namespace Sys2Proof

/-- The operations, with the operands in the order of the source's function calls (30_encoding.md R70, R84). -/
inductive Instr where
  /-- `parse_text(text)`, opcode 0x01, format T (R77); the text without its terminator. -/
  | parseText (text : List Byte)
  /-- `render_int(value, meter_mode)`, opcode 0x02, format R (R75); `value` is a two's complement pattern. -/
  | renderInt (value : Value) (meterMode : Bool)
  /-- `set_decimal_point(position)`, opcode 0x03, format P (R74). -/
  | setDecimalPoint (position : Byte)
  /-- `scan_tick()`, opcode 0x04, format N (R73). -/
  | scanTick
  /-- `median_of_three(a, b, c)`, opcode 0x05, format S (R76). -/
  | medianOfThree (a b c : Sample)
  /-- `rolling_store(value)`, opcode 0x06, format S (R76). -/
  | rollingStore (value : Sample)
  /-- `rolling_average()`, opcode 0x07, format N (R73). -/
  | rollingAverage
deriving DecidableEq, Repr

/-- The operation's name (30_encoding.md R70, R84). -/
def Instr.mnemonic : Instr → String
  | .parseText _ => "parse_text"
  | .renderInt _ _ => "render_int"
  | .setDecimalPoint _ => "set_decimal_point"
  | .scanTick => "scan_tick"
  | .medianOfThree _ _ _ => "median_of_three"
  | .rollingStore _ => "rolling_store"
  | .rollingAverage => "rolling_average"

/-- The operation's short name, an accepted synonym (30_encoding.md R70, R84). -/
def Instr.shortName : Instr → String
  | .parseText _ => "PTXT"
  | .renderInt _ _ => "RINT"
  | .setDecimalPoint _ => "SDP"
  | .scanTick => "SCAN"
  | .medianOfThree _ _ _ => "MED3"
  | .rollingStore _ => "RSTO"
  | .rollingAverage => "RAVG"

end Sys2Proof
end

