-- ==== Sys2Proof/WellFormed.lean ====
section
/-! DEFINITION. Which terms of Instr the command stream can carry (30_encoding.md R77; 93_implementation_defined.md
U14). -/

namespace Sys2Proof

/-- The one check: a text holds no 0x00, which would end it (30_encoding.md R77: "none of them 0x00"). Every other
operand value is legal (R82: "every `position`, every `value`, every sample and every text byte is legal"). -/
def Instr.wellFormed : Instr → Bool
  | .parseText text => text.all (· != 0)
  | .renderInt _ _ => true
  | .setDecimalPoint _ => true
  | .scanTick => true
  | .medianOfThree _ _ _ => true
  | .rollingStore _ => true
  | .rollingAverage => true

/-- `wellFormed` as a proposition. -/
abbrev Instr.WellFormed (i : Instr) : Prop := i.wellFormed = true

end Sys2Proof
end

