-- ==== Sys2Proof/Decode.lean ====
section
/-! DEFINITION. The command stream (30_encoding.md section 2): a decoder that is total on any bytes and rejects by name,
and an encoder written from the same tables. -/

namespace Sys2Proof

/-- The seven opcodes (30_encoding.md R70). -/
inductive Opcode where
  | ptxt
  | rint
  | sdp
  | scan
  | med3
  | rsto
  | ravg
deriving DecidableEq, Repr

/-- The opcode byte of each operation (30_encoding.md R70). -/
def opcodeByte : Opcode → Byte
  | .ptxt => 0x01
  | .rint => 0x02
  | .sdp => 0x03
  | .scan => 0x04
  | .med3 => 0x05
  | .rsto => 0x06
  | .ravg => 0x07

/-- The operation a first byte names; none for the reserved bytes 0x00 and 0x08 to 0xFF (30_encoding.md R70, R82). -/
def opcodeOf (b : Byte) : Option Opcode :=
  match b.toNat with
  | 1 => some .ptxt
  | 2 => some .rint
  | 3 => some .sdp
  | 4 => some .scan
  | 5 => some .med3
  | 6 => some .rsto
  | 7 => some .ravg
  | _ => none

/-- What stands at the front of a list of bytes. -/
inductive Decoded where
  /-- A complete command, and the bytes after it. -/
  | command (i : Instr) (rest : List Byte)
  /-- A reserved opcode, a one-byte command that is discarded, and the bytes after it (30_encoding.md R82). -/
  | reserved (opcode : Byte) (rest : List Byte)
  /-- The beginning of a command whose last byte has not arrived (30_encoding.md R72). -/
  | incomplete
deriving DecidableEq, Repr

/-- The bytes after the front command; none where it is incomplete. -/
def Decoded.rest? : Decoded → Option (List Byte)
  | .command _ rest => some rest
  | .reserved _ rest => some rest
  | .incomplete => none

/-- A 16-bit operand from its bytes, low byte first: `hi * 256 + lo` (20_memory.md R53; 30_encoding.md R81). -/
def joinLE (lo hi : Byte) : BitVec 16 := hi ++ lo

/-- The low byte of a 16-bit operand. -/
def lowByte (v : BitVec 16) : Byte := v.extractLsb' 0 8

/-- The high byte of a 16-bit operand. -/
def highByte (v : BitVec 16) : Byte := v.extractLsb' 8 8

/-- `meter_mode` is bit 0 of the flags byte; bits 7:1 are ignored (30_encoding.md R75). -/
def meterFlag (flags : Byte) : Bool := flags.getLsbD 0

/-- The flags byte an assembler writes for `meter_mode`: reserved bits 0 (30_encoding.md R75, R84). -/
def flagsByte (meterMode : Bool) : Byte := if meterMode then 0x01 else 0x00

/-- The text up to the first 0x00, and the bytes after that terminator; none if there is no terminator yet
(30_encoding.md R77). -/
def readText : List Byte → Option (List Byte × List Byte)
  | [] => none
  | b :: bs =>
    if b = 0 then some ([], bs)
    else match readText bs with
      | some (text, rest) => some (b :: text, rest)
      | none => none

/-- The operand bytes of one operation, formats N, P, R, S and T (30_encoding.md R73 to R77, R81). -/
def decodeOperands : Opcode → List Byte → Decoded
  | .ptxt, bs =>
    match readText bs with
    | some (text, rest) => .command (.parseText text) rest
    | none => .incomplete
  | .rint, flags :: lo :: hi :: rest => .command (.renderInt (joinLE lo hi) (meterFlag flags)) rest
  | .rint, _ => .incomplete
  | .sdp, position :: rest => .command (.setDecimalPoint position) rest
  | .sdp, _ => .incomplete
  | .scan, rest => .command .scanTick rest
  | .med3, al :: ah :: bl :: bh :: cl :: ch :: rest =>
    .command (.medianOfThree (joinLE al ah) (joinLE bl bh) (joinLE cl ch)) rest
  | .med3, _ => .incomplete
  | .rsto, lo :: hi :: rest => .command (.rollingStore (joinLE lo hi)) rest
  | .rsto, _ => .incomplete
  | .ravg, rest => .command .rollingAverage rest

/-- The command at the front of a byte list: the opcode byte alone decides the format (30_encoding.md R71, R82, R83). -/
def decode : List Byte → Decoded
  | [] => .incomplete
  | op :: bs =>
    match opcodeOf op with
    | some o => decodeOperands o bs
    | none => .reserved op bs

/-- The opcode of an instruction (30_encoding.md R70). -/
def Instr.opcode : Instr → Opcode
  | .parseText _ => .ptxt
  | .renderInt _ _ => .rint
  | .setDecimalPoint _ => .sdp
  | .scanTick => .scan
  | .medianOfThree _ _ _ => .med3
  | .rollingStore _ => .rsto
  | .rollingAverage => .ravg

/-- The operand bytes an assembler writes (30_encoding.md R73 to R77, R84). -/
def Instr.operandBytes : Instr → List Byte
  | .parseText text => text ++ [0x00]
  | .renderInt value meterMode => [flagsByte meterMode, lowByte value, highByte value]
  | .setDecimalPoint position => [position]
  | .scanTick => []
  | .medianOfThree a b c => [lowByte a, highByte a, lowByte b, highByte b, lowByte c, highByte c]
  | .rollingStore value => [lowByte value, highByte value]
  | .rollingAverage => []

/-- The bytes of a command: its opcode byte, then its operand bytes (30_encoding.md R71, R84). -/
def encode (i : Instr) : List Byte := opcodeByte i.opcode :: i.operandBytes

/-- The `n` low bytes of a number, least significant first: how spec/opcode_table.json numbers a command's bits
(byte 0 is bits 7..0, byte 1 is bits 15..8). -/
def bytesOf : Nat → Nat → List Byte
  | 0, _ => []
  | n + 1, w => BitVec.ofNat 8 w :: bytesOf n (w / 256)

/-- The bytes of a table word, followed by zeros up to the longest command of fixed length, 7 bytes (30_encoding.md
R83); the first zero also ends a text. -/
def tableBytes (nbits w : Nat) : List Byte := bytesOf ((nbits + 7) / 8) (w % 2 ^ nbits) ++ List.replicate 7 0

/-- The front command's own bytes: the list without what stands after that command. -/
def frontCommand (bs : List Byte) : List Byte :=
  match (decode bs).rest? with
  | some rest => bs.take (bs.length - rest.length)
  | none => bs

/-- The instruction the decoder reads from a word of spec/opcode_table.json. -/
def decodeTableWord (nbits w : Nat) : Option Instr :=
  match decode (tableBytes nbits w) with
  | .command i _ => some i
  | .reserved _ _ => none
  | .incomplete => none

end Sys2Proof
end

