-- ==== Sys2Proof/Config.lean ====
section
/-! DEFINITION. What an implementation fixes: the configuration `cfg` of the block (40_glyph_table.md R103, R104).
The default contents stand in Sys2Proof/Machine/GlyphRom.lean. -/

namespace Sys2Proof

/-- A segment output group, "one physical cluster of segment-driving outputs" (00_scope.md R6, R12). -/
inductive SegGroup where
  | a
  | b
  | c
deriving DecidableEq, Repr

/-- The segment patterns of one glyph, one per group: a 1 names a line to be driven low
(40_glyph_table.md R100). -/
structure Pattern where
  a : Lines
  b : Lines
  c : Lines
deriving DecidableEq, Repr

/-- The configuration (ROM_A, ROM_B, ROM_C, BLANK_A, BLANK_B, BLANK_C, DPG, DPMASK) of 40_glyph_table.md R104.
Condition (a) of R104, exactly 18 entries of GW bits in each ROM, is the type of the ROM fields.

DESIGN CHOICE (log 1): the configuration travels in State as a field nothing writes, so that a statement about
every state is a statement about every configuration. -/
structure Config where
  romA : Vector Lines 18
  romB : Vector Lines 18
  romC : Vector Lines 18
  blankA : Lines
  blankB : Lines
  blankC : Lines
  dpGroup : SegGroup
  dpMask : Lines
deriving DecidableEq, Repr

/-- BLANK_X, the mask of the lines of group X that carry segments (40_glyph_table.md R101). -/
def Config.blankOf (c : Config) : SegGroup → Lines
  | .a => c.blankA
  | .b => c.blankB
  | .c => c.blankC

/-- The lines of group X that carry the decimal point: DPMASK in group DPG, none elsewhere
(42_scanner.md R145). -/
def Config.pointOf (c : Config) (x : SegGroup) : Lines :=
  if x = c.dpGroup then c.dpMask else 0

/-- The lines of group X that the block ever changes: the segment lines BLANK_X and, in group DPG, the decimal-point
line (10_state.md R35). -/
def Config.usedLines (c : Config) (x : SegGroup) : Lines := c.blankOf x ||| c.pointOf x

/-- ROM_X[g] for `g < 18` (40_glyph_table.md R100). -/
def Config.romOf (c : Config) : SegGroup → Vector Lines 18
  | .a => c.romA
  | .b => c.romB
  | .c => c.romC

/-- The admissible configurations, conditions (b) to (e) of 40_glyph_table.md R104: (b) a pattern names only segment
lines of its group; (c) DPMASK has exactly one bit set and no glyph uses the decimal-point line; (d) the 18 triples are
pairwise different; (e) no triple is all zero. -/
abbrev Config.Admissible (c : Config) : Prop :=
  (∀ g : Fin 18, c.romA[g] &&& ~~~c.blankA = 0 ∧ c.romB[g] &&& ~~~c.blankB = 0 ∧ c.romC[g] &&& ~~~c.blankC = 0) ∧
  (∃ k : Fin 8, c.dpMask = 1#8 <<< k.val) ∧
  (∀ g : Fin 18, (c.romOf c.dpGroup)[g] &&& c.dpMask = 0) ∧
  (∀ g h : Fin 18, c.romA[g] = c.romA[h] → c.romB[g] = c.romB[h] → c.romC[g] = c.romC[h] → g = h) ∧
  (∀ g : Fin 18, ¬ (c.romA[g] = 0 ∧ c.romB[g] = 0 ∧ c.romC[g] = 0))

end Sys2Proof
end

