-- ==== Sys2Proof/Machine/GlyphRom.lean ====
section
/-! DEFINITION. The default contents of the glyph ROM and the default masks (40_glyph_table.md R103, R105). -/

namespace Sys2Proof.Machine

/-- ROM_A of 40_glyph_table.md R103: segments a, b, c on bits 0, 1, 2. -/
def defaultRomA : Vector Lines 18 :=
  #v[0x07, 0x06, 0x03, 0x07, 0x06, 0x05, 0x05, 0x07, 0x07, 0x07, 0x07, 0x04, 0x01, 0x06, 0x01, 0x01, 0x00, 0x04]

/-- ROM_B of 40_glyph_table.md R103: segments d, e, f on bits 0, 1, 2. -/
def defaultRomB : Vector Lines 18 :=
  #v[0x07, 0x00, 0x03, 0x01, 0x04, 0x05, 0x07, 0x00, 0x07, 0x05, 0x06, 0x07, 0x07, 0x03, 0x07, 0x06, 0x00, 0x06]

/-- ROM_C of 40_glyph_table.md R103: segment g on bit 0. -/
def defaultRomC : Vector Lines 18 :=
  #v[0x00, 0x00, 0x01, 0x01, 0x01, 0x01, 0x01, 0x00, 0x01, 0x01, 0x01, 0x01, 0x00, 0x01, 0x01, 0x01, 0x01, 0x01]

/-- The default configuration of 40_glyph_table.md R103: BLANK_A = 0x07, BLANK_B = 0x07, BLANK_C = 0x03, DPG = C,
DPMASK = 0x02. -/
def defaultConfig : Config where
  romA := defaultRomA
  romB := defaultRomB
  romC := defaultRomC
  blankA := 0x07
  blankB := 0x07
  blankC := 0x03
  dpGroup := .c
  dpMask := 0x02

end Sys2Proof.Machine
end

