-- ==== Sys2Proof/Machine/State.lean ====
section
/-! DEFINITION. The state of the block (10_state.md), its faults and refusals, and the state after reset
(70_reset_and_hazards.md R201). -/

namespace Sys2Proof.Machine

/-- Three like things at indices 0, 1, 2: DB and SWIN have exactly 3 slots (10_state.md R21, R26). -/
structure Triple (α : Type) where
  s0 : α
  s1 : α
  s2 : α
deriving DecidableEq, Repr

/-- A slot of the display buffer, the record `{glyph, dp}` (10_state.md R21 to R23). Legal glyphs are 0..17 and 32; the
field is 6 bits wide, so the type holds others too, and a lookup of one faults (40_glyph_table.md R102). -/
structure Slot where
  glyph : GlyphNum
  dp : Bool
deriving DecidableEq, Repr

/-- The output registers OUT_A, OUT_B, OUT_C and ANODE (10_state.md R35, R36): one output state. -/
structure Outputs where
  a : Lines
  b : Lines
  c : Lines
  anode : Anode
deriving DecidableEq, Repr

/-- The output states after steps 1 to 5 of one `scan_tick`, in order (42_scanner.md R141). -/
structure TickPhases where
  p1 : Outputs
  p2 : Outputs
  p3 : Outputs
  p4 : Outputs
  p5 : Outputs
deriving DecidableEq, Repr

/-- What the host can do to the block: present a byte (`cmd_data` with `cmd_valid`) or assert `rst` (10_state.md R40;
60_exceptions.md R193). -/
inductive HostEvent where
  | byte (b : Byte)
  | rst
deriving DecidableEq, Repr

/-- The state. The first seven fields are the architectural registers of 10_state.md R33 and `port` is the command
port's partial command (R39); `cfg`, `hostIn` and `trace` are the model's own (logs 1, 3 and 7). -/
structure State where
  /-- DB, the display buffer; slot 0 is the leftmost digit (R21). -/
  db : Triple Slot
  /-- SCAN, the digit the next `scan_tick` shows (R31). -/
  scan : Counter
  /-- SWIN, the sample window (R26). -/
  swin : Triple Sample
  /-- WCUR, the slot the next `rolling_store` writes (R32). -/
  wcur : Counter
  /-- RES, the result register (R34). -/
  res : Sample
  /-- OUT_A, OUT_B, OUT_C, ANODE (R35, R36). -/
  out : Outputs
  /-- The bytes accepted of a command not yet complete (R39; 30_encoding.md R72). -/
  port : List Byte
  /-- The configuration; nothing writes it (40_glyph_table.md R104; 70_reset_and_hazards.md R201). -/
  cfg : Config
  /-- What the host still presents, in time order. -/
  hostIn : List HostEvent
  /-- The phase records of the `scan_tick`s executed, oldest first (42_scanner.md R141; 70_reset_and_hazards.md R215). -/
  trace : List TickPhases
deriving DecidableEq, Repr

/-- Why a step can stop. The block itself has no fault state (60_exceptions.md R180): each of these is for a state that
no run from reset reaches, and stopping there is safe. -/
inductive Fault where
  /-- Raised by `scan_tick` when the slot shown holds a glyph 18..31 or 33..63, which "must not reach the Glyph Table";
  a model "gives it no value: it faults" (40_glyph_table.md R102). Safe. -/
  | invalidGlyph
  /-- Raised by `scan_tick` when SCAN is 3: there is no slot DB[3] (20_memory.md R51, "unreachable"). DESIGN CHOICE
  (log 8). Safe. -/
  | scanOutOfRange
  /-- Raised by `rolling_store` when WCUR is 3: there is no slot SWIN[3] (20_memory.md R51, "unreachable"). DESIGN CHOICE
  (log 8). Safe. -/
  | cursorOutOfRange
deriving DecidableEq, Repr

/-- Why an instruction can be refused. Every instruction of this model has its meaning, so nothing is refused. -/
inductive Refusal where
  /-- For an arm of exec that has no meaning yet; no arm uses it. Safe. -/
  | notModelled (mnemonic : String)
deriving DecidableEq, Repr

/-- The outcome of a step of this machine. -/
abbrev Outcome := Host.Outcome State Fault Refusal

/-- The reset state of a block with configuration `cfg` (70_reset_and_hazards.md R201). -/
def State.resetWith (cfg : Config) : State where
  db := ⟨⟨blankGlyph, false⟩, ⟨blankGlyph, false⟩, ⟨blankGlyph, false⟩⟩
  scan := 0
  swin := ⟨0, 0, 0⟩
  wcur := 0
  res := 0
  out := ⟨cfg.blankA, cfg.blankB, cfg.blankC, 0⟩
  port := []
  cfg := cfg
  hostIn := []
  trace := []

/-- The machine right after reset (70_reset_and_hazards.md R201), with the default configuration of 40_glyph_table.md
R103 and a host that presents nothing yet (DESIGN CHOICE, logs 1, 3, 7). -/
def State.reset : State := State.resetWith defaultConfig

end Sys2Proof.Machine
end

