-- ==== Sys2Proof/Machine/Ops.lean ====
section
/-! DEFINITION. The shared operations over the register files, the glyph ROM, the outputs and the command port.
There is no operation that takes an exception: the block raises none, takes no trap and has no return from one
(60_exceptions.md R180, R185). There is no memory operation: the block has no byte-addressed memory (20_memory.md
R50). -/

namespace Sys2Proof.Machine

/-- `x[i]`; there is no index above 2 (20_memory.md R51). -/
def Triple.get? {α : Type} (t : Triple α) (i : Nat) : Option α :=
  match i with
  | 0 => some t.s0
  | 1 => some t.s1
  | 2 => some t.s2
  | _ => none

/-- Change slot `i` by `f`; the other slots stay. An index above 2 names no slot and changes nothing. -/
def Triple.modify {α : Type} (t : Triple α) (i : Nat) (f : α → α) : Triple α :=
  match i with
  | 0 => { t with s0 := f t.s0 }
  | 1 => { t with s1 := f t.s1 }
  | 2 => { t with s2 := f t.s2 }
  | _ => t

/-- `x[i] <- v`. -/
def Triple.set {α : Type} (t : Triple α) (i : Nat) (v : α) : Triple α := t.modify i fun _ => v

/-- The same value in every slot. -/
def Triple.fill {α : Type} (v : α) : Triple α := ⟨v, v, v⟩

/-- `{32, 0}`, a blank slot without decimal point. -/
def blankSlot : Slot := ⟨blankGlyph, false⟩

/-- `DB[i].glyph <- g`, leaving the decimal point (20_memory.md R55). -/
def setGlyph (db : Triple Slot) (i : Nat) (g : GlyphNum) : Triple Slot := db.modify i fun slot => { slot with glyph := g }

/-- `(x + 1) mod 3`, the advance of SCAN and of WCUR (42_scanner.md R147; 43_sample_filter.md R164). -/
def advance (x : Counter) : Counter := BitVec.ofNat 2 ((x.toNat + 1) % 3)

/-- `lookup(g)` of the glyph table (40_glyph_table.md R100): the three patterns of glyph `g`; nothing for an index
outside 0..17, the blank sentinel among them (R101, R102). -/
def lookup (cfg : Config) (g : GlyphNum) : Option Pattern :=
  if h : g.toNat < 18 then some ⟨cfg.romA[g.toNat], cfg.romB[g.toNat], cfg.romC[g.toNat]⟩ else none

/-- OUT_X by its group. -/
def Outputs.lines (o : Outputs) : SegGroup → Lines
  | .a => o.a
  | .b => o.b
  | .c => o.c

/-- Change OUT_X of one group. -/
def Outputs.modify (o : Outputs) (x : SegGroup) (f : Lines → Lines) : Outputs :=
  match x with
  | .a => { o with a := f o.a }
  | .b => { o with b := f o.b }
  | .c => { o with c := f o.c }

/-- Step 1, `deactivate_all_anodes()` (42_scanner.md R142). -/
def Outputs.deactivate (o : Outputs) : Outputs := { o with anode := 0 }

/-- Step 2, every segment line to its off level (42_scanner.md R143). -/
def Outputs.allOff (cfg : Config) (o : Outputs) : Outputs :=
  { o with a := o.a ||| cfg.blankA, b := o.b ||| cfg.blankB, c := o.c ||| cfg.blankC }

/-- Clear the lines a pattern names, active-low (42_scanner.md R144). -/
def Outputs.light (p : Pattern) (o : Outputs) : Outputs :=
  { o with a := o.a &&& ~~~p.a, b := o.b &&& ~~~p.b, c := o.c &&& ~~~p.c }

/-- Step 3: nothing for the blank sentinel, else the glyph's patterns (42_scanner.md R144); nothing to go on with for an
invalid glyph (40_glyph_table.md R102). -/
def Outputs.showGlyph (cfg : Config) (g : GlyphNum) (o : Outputs) : Option Outputs :=
  if g = blankGlyph then some o
  else match lookup cfg g with
    | some p => some (o.light p)
    | none => none

/-- Step 4, the decimal-point line of group DPG (42_scanner.md R145). -/
def Outputs.showPoint (cfg : Config) (dp : Bool) (o : Outputs) : Outputs :=
  o.modify cfg.dpGroup fun v => if dp then v &&& ~~~cfg.dpMask else v ||| cfg.dpMask

/-- Step 5, `select_active_digit(digit)`: ANODE <- 1 << digit (42_scanner.md R146). -/
def Outputs.select (digit : Counter) (o : Outputs) : Outputs := { o with anode := 1#3 <<< digit.toNat }

/-- The bytes the host presents before it does anything else. -/
def offered : List HostEvent → List Byte
  | [] => []
  | .byte b :: es => b :: offered es
  | .rst :: _ => []

/-- What the host does after those bytes. -/
def afterOffered : List HostEvent → List HostEvent
  | [] => []
  | .byte _ :: es => afterOffered es
  | .rst :: es => .rst :: es

/-- The host presents these bytes. -/
def presents (bs : List Byte) : List HostEvent := bs.map .byte

/-- A command or reserved byte has been accepted: the port is empty again, and the block has accepted no byte after its
last (30_encoding.md R71), so those are still presented. -/
def State.accepted (s : State) (rest : List Byte) : State :=
  { s with port := [], hostIn := presents rest ++ afterOffered s.hostIn }

/-- No command is complete: the bytes presented are held by the command port and change no architectural state
(30_encoding.md R72). -/
def State.awaitRest (s : State) : State :=
  { s with port := s.port ++ offered s.hostIn, hostIn := afterOffered s.hostIn }

/-- `rst` is asserted (70_reset_and_hazards.md R200, R201): every register takes its reset value and a partly received
command is discarded; the configuration is unchanged. What the host does next and the record of what the Segment Driver
has seen are not the block's state (log 6). -/
def State.takeReset (s : State) (es : List HostEvent) : State :=
  { State.resetWith s.cfg with hostIn := es, trace := s.trace }

end Sys2Proof.Machine
end

