-- ==== Sys2Proof/Machine/Filter.lean ====
section
/-! DEFINITION. The sample filter: `median_of_three`, `rolling_store`, `rolling_average` (43_sample_filter.md). All
comparisons are unsigned (R160). -/

namespace Sys2Proof.Machine

/-- The middle value by pairwise comparison (43_sample_filter.md R161). -/
def median (a b c : Sample) : Sample :=
  if a ≤ b then
    if b ≤ c then b else if a ≤ c then c else a
  else
    if a ≤ c then a else if b ≤ c then c else b

/-- `median_of_three(a, b, c)`: RES <- the median (43_sample_filter.md R161). -/
def execMedianOfThree (a b c : Sample) (s : State) : Outcome := .next { s with res := median a b c }

/-- `rolling_store(value)`: SWIN[WCUR] <- value; WCUR <- (WCUR + 1) mod 3 (43_sample_filter.md R164). It stops only at
WCUR = 3, which no run from reset reaches. -/
def execRollingStore (value : Sample) (s : State) : Outcome :=
  if s.wcur.toNat ≤ 2 then .next { s with swin := s.swin.set s.wcur.toNat value, wcur := advance s.wcur }
  else .fault .cursorOutOfRange

/-- One slot of the averaging loop: a nonzero sample is added to the 18-bit sum and counted, a zero is skipped
(43_sample_filter.md R166, R167). -/
def addSample (acc : Accumulator × Nat) (x : Sample) : Accumulator × Nat :=
  if x = 0 then acc else (acc.1 + x.zeroExtend 18, acc.2 + 1)

/-- The zero-skipping average, truncating; 0 where no slot is nonzero (43_sample_filter.md R166). -/
def average (w : Triple Sample) : Sample :=
  let (sum, cnt) := addSample (addSample (addSample (0, 0) w.s0) w.s1) w.s2
  if cnt = 0 then 0 else BitVec.ofNat 16 (sum.toNat / cnt)

/-- `rolling_average()`: RES <- the average of the window (43_sample_filter.md R166). -/
def execRollingAverage (s : State) : Outcome := .next { s with res := average s.swin }

end Sys2Proof.Machine
end

