-- ==== Sys2Proof/Machine/Flags.lean ====
section
/-! DEFINITION. The block has no status flags and no condition codes (10_state.md R37), so no operation computes one. The
one flag there is belongs to a slot: its decimal point, display data that an operation can set but not clear alone
(20_memory.md R55). -/

namespace Sys2Proof.Machine

/-- A slot with its decimal point set; its glyph unchanged (20_memory.md R55). -/
def Slot.withPoint (slot : Slot) : Slot := { slot with dp := true }

/-- `DB[i].dp <- 1` (20_memory.md R55). -/
def setPoint (db : Triple Slot) (i : Nat) : Triple Slot := db.modify i Slot.withPoint

end Sys2Proof.Machine
end

