-- ==== Sys2Proof/Machine/Operands.lean ====
section
/-! DEFINITION. What operand values mean: character codes and their glyphs (30_encoding.md R78 to R80), the codes of the
error text (R11), the number of `render_int` (R81). -/

namespace Sys2Proof.Machine

/-- The code of `.` (30_encoding.md R78). -/
def dotCode : Byte := 0x2E

/-- The terminator 0x00, never part of a text operand (30_encoding.md R77, R78). -/
def terminatorCode : Byte := 0x00

/-- Whether a code lies in a range of codes. -/
def codeIn (lo hi : Nat) (ch : Byte) : Bool := lo ≤ ch.toNat && ch.toNat ≤ hi

/-- The minus glyph, 16 (30_encoding.md R80). -/
def minusGlyph : GlyphNum := 16

/-- The glyph of `h`, 17 (30_encoding.md R80). -/
def hGlyph : GlyphNum := 17

/-- `glyph_of` (30_encoding.md R79): digits 0..9, hex letters of either case 10..15, minus 16, `h` and `H` 17, space the
blank sentinel; nothing for the dot and for a character of class "other" (R78). -/
def glyphOf (ch : Byte) : Option GlyphNum :=
  if codeIn 0x30 0x39 ch then some (BitVec.ofNat 6 (ch.toNat - 0x30))
  else if codeIn 0x61 0x66 ch then some (BitVec.ofNat 6 (ch.toNat - 0x61 + 10))
  else if codeIn 0x41 0x46 ch then some (BitVec.ofNat 6 (ch.toNat - 0x41 + 10))
  else if ch = 0x2D then some minusGlyph
  else if ch = 0x68 ∨ ch = 0x48 then some hGlyph
  else if ch = 0x20 then some blankGlyph
  else none

/-- The text `"--E"` (30_encoding.md R11; 41_formatter.md R118: "the codes 0x2D 0x2D 0x45"). -/
def errorText : List Byte := [0x2D, 0x2D, 0x45]

/-- The glyph of a decimal digit (30_encoding.md R80: digit d is glyph d). -/
def digitGlyph (d : Nat) : GlyphNum := BitVec.ofNat 6 d

/-- The operand of `render_int` as the number it stands for, two's complement (30_encoding.md R81). -/
def valueOf (v : Value) : Int := v.toInt

end Sys2Proof.Machine
end

