-- ==== Sys2Proof/Machine/Formatter.lean ====
section
/-! DEFINITION. The formatter: `parse_text`, `render_int`, `set_decimal_point` (41_formatter.md). -/

namespace Sys2Proof.Machine

/-- The dot (41_formatter.md R113): with no slot produced yet, a blank placeholder with its point set; otherwise the
point of the most recently produced slot. -/
def markDot : List Slot → List Slot
  | [] => [⟨blankGlyph, true⟩]
  | slot :: older => slot.withPoint :: older

/-- The loop of `parse_text` (41_formatter.md R111, R112, R114) from the slots `tmp` produced so far, the most recent
first: so the pseudocode's `tmp[n-1]` is the head and `n` the length. The three-slot limit is tested before the
character is classified (60_exceptions.md R184). A 0x00, which no encodable text holds, ends the text (log 9). -/
def scanText : List Byte → List Slot → List Slot
  | [], tmp => tmp
  | ch :: rest, tmp =>
    if tmp.length = 3 then tmp
    else if ch = terminatorCode then tmp
    else if ch = dotCode then scanText rest (markDot tmp)
    else match glyphOf ch with
      | some g => scanText rest (⟨g, false⟩ :: tmp)
      | none => scanText rest tmp

/-- Right alignment and padding with blank slots on the left (41_formatter.md R115), from the slots produced, the most
recent first: the most recent goes to DB[2]. -/
def rightAlign (tmp : List Slot) : Triple Slot :=
  ⟨tmp.getD 2 blankSlot, tmp.getD 1 blankSlot, tmp.getD 0 blankSlot⟩

/-- The buffer `parse_text` writes (41_formatter.md R111, R115). -/
def textBuffer (text : List Byte) : Triple Slot := rightAlign (scanText text [])

/-- The state change of `parse_text`, also the `--E` path of `render_int` (41_formatter.md R111, R116, R118). -/
def State.showText (s : State) (text : List Byte) : State := { s with db := textBuffer text, scan := 0 }

/-- `parse_text(text)` (41_formatter.md R111). -/
def execParseText (text : List Byte) (s : State) : Outcome := .next (s.showText text)

/-- Digit extraction (41_formatter.md R122) with `room` slots left, so that the pseudocode's cursor `i` is `room - 1`:
write `mag mod 10` at the cursor, divide, step left; stop when the magnitude is zero or the cursor has passed slot 0.
The answer also gives the room left over. -/
def placeDigits : Nat → Nat → Triple Slot → Triple Slot × Nat
  | 0, _, db => (db, 0)
  | room + 1, mag, db =>
    let db' := setGlyph db room (digitGlyph (mag % 10))
    if mag / 10 = 0 then (db', room) else placeDigits room (mag / 10) db'

/-- The sign (41_formatter.md R121): the minus glyph left of the most significant digit, if room remains. -/
def placeSign (neg : Bool) (placed : Triple Slot × Nat) : Triple Slot :=
  if neg && 0 < placed.2 then setGlyph placed.1 (placed.2 - 1) minusGlyph else placed.1

/-- The meter step (41_formatter.md R118): above 999 in meter mode, one truncating division by 10 and the decimal point
moves to slot 1. The answer is the value to show and the point's slot. The value divided is positive, where truncation
and floor agree (00_scope.md R8). -/
def meterScale (value : Int) (meterMode : Bool) : Int × Nat :=
  if meterMode && 999 < value then (value / 10, 1) else (value, 0)

/-- The buffer after initialisation (41_formatter.md R119): blank slots, or zero glyphs in meter mode; all points
cleared. -/
def initialBuffer (meterMode : Bool) : Triple Slot := Triple.fill ⟨if meterMode then digitGlyph 0 else blankGlyph, false⟩

/-- The buffer for a nonzero value in range (41_formatter.md R121 to R123). -/
def numberBuffer (value : Int) (dpPos : Nat) (meterMode : Bool) : Triple Slot :=
  let db := placeSign (value < 0) (placeDigits 3 value.natAbs (initialBuffer meterMode))
  if meterMode then setPoint db dpPos else db

/-- The state change of `render_int` (41_formatter.md R117). The order of the tests is meter division, range check,
zero test (60_exceptions.md R184). The zero case returns before the decimal point and before SCAN <- 0 (R120, R125). -/
def State.showInt (s : State) (value : Int) (meterMode : Bool) : State :=
  let (shown, dpPos) := meterScale value meterMode
  if shown < -99 ∨ 999 < shown then s.showText errorText
  else if shown = 0 then { s with db := setGlyph (initialBuffer meterMode) 2 (digitGlyph 0) }
  else { s with db := numberBuffer shown dpPos meterMode, scan := 0 }

/-- `render_int(value, meter_mode)` (41_formatter.md R117). -/
def execRenderInt (value : Value) (meterMode : Bool) (s : State) : Outcome := .next (s.showInt (valueOf value) meterMode)

/-- `set_decimal_point(position)` (41_formatter.md R126): an out-of-range position is a no-op. -/
def execSetDecimalPoint (position : Byte) (s : State) : Outcome :=
  .next (if position.toNat ≤ 2 then { s with db := setPoint s.db position.toNat } else s)

end Sys2Proof.Machine
end

