-- ==== Sys2Proof/Machine/Scanner.lean ====
section
/-! DEFINITION. The digit scanner: `scan_tick` (42_scanner.md). -/

namespace Sys2Proof.Machine

/-- The five phases of a tick that shows `slot` on `digit`, from the outputs before it (42_scanner.md R141 to R146);
nothing for an invalid glyph (40_glyph_table.md R102). The slot is read once and used in steps 3 and 4 (R144). -/
def tickPhases (cfg : Config) (slot : Slot) (digit : Counter) (o : Outputs) : Option TickPhases :=
  let p1 := o.deactivate
  let p2 := p1.allOff cfg
  match p2.showGlyph cfg slot.glyph with
  | none => none
  | some p3 =>
    let p4 := p3.showPoint cfg slot.dp
    some ⟨p1, p2, p3, p4, p4.select digit⟩

/-- The state after a tick with these phases: the outputs of P5, SCAN advanced (42_scanner.md R147), the phases
recorded (R141). -/
def State.afterTick (s : State) (ph : TickPhases) : State :=
  { s with out := ph.p5, scan := advance s.scan, trace := s.trace ++ [ph] }

/-- `scan_tick()` (42_scanner.md R148). It stops only in states no run from reset reaches: SCAN = 3, or an invalid glyph
in the slot shown. -/
def execScanTick (s : State) : Outcome :=
  match s.db.get? s.scan.toNat with
  | none => .fault .scanOutOfRange
  | some slot =>
    match tickPhases s.cfg slot s.scan s.out with
    | none => .fault .invalidGlyph
    | some ph => .next (s.afterTick ph)

end Sys2Proof.Machine
end

