-- ==== Sys2Proof/Machine/Dispatch.lean ====
section
/-! DEFINITION. One arm per operation of 30_encoding.md R70, each a call of its meaning. -/

namespace Sys2Proof.Machine

def exec (i : Instr) (s : State) : Host.Outcome State Fault Refusal :=
  match i with
  | .parseText text => Sys2Proof.Machine.execParseText text s
  | .renderInt value meterMode => Sys2Proof.Machine.execRenderInt value meterMode s
  | .setDecimalPoint position => Sys2Proof.Machine.execSetDecimalPoint position s
  | .scanTick => Sys2Proof.Machine.execScanTick s
  | .medianOfThree a b c => Sys2Proof.Machine.execMedianOfThree a b c s
  | .rollingStore value => Sys2Proof.Machine.execRollingStore value s
  | .rollingAverage => Sys2Proof.Machine.execRollingAverage s

end Sys2Proof.Machine
end

