-- ==== Sys2Proof/Machine/Step.lean ====
section
/-! DEFINITION. One step of the machine: the next thing the host does to it (30_encoding.md R71, R72, R82;
70_reset_and_hazards.md R200). -/

namespace Sys2Proof.Machine

/-- One step. `rst` overrides everything (60_exceptions.md R184). Otherwise the block accepts the bytes presented until
a command is complete, and executes it as one atomic operation (30_encoding.md R71); a reserved opcode is discarded
(R82); bytes of an incomplete command are held and the block waits (R72), for ever if nothing more comes. -/
def step (s : State) : Host.Outcome State Fault Refusal :=
  match s.hostIn with
  | .rst :: es => .next (s.takeReset es)
  | _ =>
    match decode (s.port ++ offered s.hostIn) with
    | .command i rest => exec i (s.accepted rest)
    | .reserved _ rest => .next (s.accepted rest)
    | .incomplete => .next s.awaitRest

/-- The state in which the host presents one command next: the front command of a table word's bytes, with nothing of
another command in the port, before whatever the host presented already (log 4). -/
def State.withFetchWord (s : State) (nbits w : Nat) : State :=
  { s with port := [], hostIn := presents (frontCommand (tableBytes nbits w)) ++ s.hostIn }

end Sys2Proof.Machine
end

