-- ==== Sys2Proof/Machine/Ports.lean ====
section
/-! DEFINITION. What the outside sees of a state: the output ports (10_state.md R40), the Segment Driver's calls (R41) and
a slot's byte form (R23); and how a
command is written down (30_encoding.md R84). Views only: no step reads them. -/

namespace Sys2Proof.Machine

/-- The output ports (10_state.md R40). -/
structure OutputPorts where
  cmdReady : Bool
  segA : Lines
  segB : Lines
  segC : Lines
  anode : Anode
  res : Sample
deriving DecidableEq, Repr

/-- The values of the output ports. An operation is one atomic step, so a state stands between operations, where
`cmd_ready` is 1 (70_reset_and_hazards.md R205; log 11). -/
def State.outputPorts (s : State) : OutputPorts := ⟨true, s.out.a, s.out.b, s.out.c, s.out.anode, s.res⟩

/-- The interface the block consumes (10_state.md R41). -/
inductive DriverCall where
  | setGroupPattern (x : SegGroup) (bits : Lines)
  | selectActiveDigit (index : Nat)
  | deactivateAllAnodes
deriving DecidableEq, Repr

/-- "a change of OUT_X is the call `set_group_pattern(X, OUT_X)`" (10_state.md R41). -/
def groupCalls (before after : Outputs) (x : SegGroup) : List DriverCall :=
  if before.lines x = after.lines x then [] else [.setGroupPattern x (after.lines x)]

/-- The calls for the changes of all three groups between two phases. -/
def segmentCalls (before after : Outputs) : List DriverCall :=
  groupCalls before after .a ++ groupCalls before after .b ++ groupCalls before after .c

/-- The digit a one-hot ANODE selects (10_state.md R36). -/
def Outputs.selected? (o : Outputs) : Option Nat :=
  if o.anode = 1 then some 0 else if o.anode = 2 then some 1 else if o.anode = 4 then some 2 else none

/-- The Segment Driver calls of one tick, in the order of the phases (10_state.md R41; 42_scanner.md R141, R142, R146). -/
def TickPhases.driverCalls (t : TickPhases) : List DriverCall :=
  [.deactivateAllAnodes] ++ segmentCalls t.p1 t.p2 ++ segmentCalls t.p2 t.p3 ++ segmentCalls t.p3 t.p4 ++
    (t.p5.selected?.map DriverCall.selectActiveDigit).toList

/-- The byte form of a slot, `{dp, 0b0, glyph[5:0]}` (10_state.md R23). -/
def Slot.pack (slot : Slot) : Byte := BitVec.ofBool slot.dp ++ 0#1 ++ slot.glyph

/-- The byte form of the display buffer, slot 0 first. -/
def packedBuffer (db : Triple Slot) : List Byte := [db.s0.pack, db.s1.pack, db.s2.pack]

/-- The line of assembly that encodes as this command (30_encoding.md R84): the operation's name, then its operands in
the order of the source's calls; text in quotes, numbers in decimal, `meter_mode` as true or false. -/
def assemblyLine (i : Instr) : String :=
  match i with
  | .parseText text => i.mnemonic ++ " \"" ++ String.ofList (text.map fun ch => Char.ofNat ch.toNat) ++ "\""
  | .renderInt value meterMode => i.mnemonic ++ " " ++ toString value.toInt ++ ", " ++ toString meterMode
  | .setDecimalPoint position => i.mnemonic ++ " " ++ toString position.toNat
  | .scanTick => i.mnemonic
  | .medianOfThree a b c => i.mnemonic ++ " " ++ toString a.toNat ++ ", " ++ toString b.toNat ++ ", " ++ toString c.toNat
  | .rollingStore value => i.mnemonic ++ " " ++ toString value.toNat
  | .rollingAverage => i.mnemonic

end Sys2Proof.Machine
end

