-- ==== Sys2Proof/Safety.lean ====
section
/-! DEFINITION. What counts as a legal state, and what a run of commands is, in the terms the statements use. -/

namespace Sys2Proof.Machine

/-- A legal slot: a glyph of the table or the blank sentinel (10_state.md R22). -/
abbrev Slot.Legal (slot : Slot) : Prop := slot.glyph.toNat < glyphCount ∨ slot.glyph = blankGlyph

/-- All three slots of a display buffer are legal (10_state.md R22). -/
abbrev LegalBuffer (db : Triple Slot) : Prop := db.s0.Legal ∧ db.s1.Legal ∧ db.s2.Legal

/-- ANODE is 000 or has exactly one bit set (10_state.md R36). -/
abbrev LegalAnode (x : Anode) : Prop := x = 0 ∨ x = 1 ∨ x = 2 ∨ x = 4

/-- The lines of OUT_X that the block never changes. -/
def unusedLines (s : State) (x : SegGroup) : Lines := s.out.lines x &&& ~~~(s.cfg.usedLines x)

/-- No ghosting in a recorded tick (42_scanner.md R141, R149; 70_reset_and_hazards.md R213): no digit is active in P1 to
P4, one digit is active in P5, and the segment lines of P5 are those of P4. -/
abbrev TickPhases.NoGhost (t : TickPhases) : Prop :=
  t.p1.anode = 0 ∧ t.p2.anode = 0 ∧ t.p3.anode = 0 ∧ t.p4.anode = 0 ∧
  (t.p5.anode = 1 ∨ t.p5.anode = 2 ∨ t.p5.anode = 4) ∧
  t.p5.a = t.p4.a ∧ t.p5.b = t.p4.b ∧ t.p5.c = t.p4.c

/-- The legal states: every register holds a legal value (10_state.md R33), unused lines are 0 (R35), the command port
holds no complete command (R39), and no recorded tick shows one digit's pattern on another. -/
abbrev State.Legal (s : State) : Prop :=
  LegalBuffer s.db ∧ s.scan.toNat ≤ 2 ∧ s.wcur.toNat ≤ 2 ∧ LegalAnode s.out.anode ∧
  (unusedLines s .a = 0 ∧ unusedLines s .b = 0 ∧ unusedLines s .c = 0) ∧
  decode s.port = .incomplete ∧ ∀ t ∈ s.trace, t.NoGhost

/-- The fold of the operations' transitions over a sequence (20_memory.md R56), stopping at the first fault or
refusal. -/
def execAll : List Instr → State → Outcome
  | [], s => .next s
  | i :: is, s =>
    match exec i s with
    | .next t => execAll is t
    | .fault r => .fault r
    | .refused r => .refused r

/-- The bytes of a sequence of commands: "The stream is a concatenation of commands" (30_encoding.md R71). -/
def encodeAll (is : List Instr) : List Byte := is.flatMap encode

/-- How many slots `parse_text` has produced after a text (41_formatter.md R111, the pseudocode's `n`). -/
def slotsProduced (text : List Byte) : Nat := (scanText text []).length

/-- A character that `parse_text` skips: class "other" of 30_encoding.md R78. -/
abbrev Skipped (ch : Byte) : Prop := ch ≠ terminatorCode ∧ ch ≠ dotCode ∧ glyphOf ch = none

end Sys2Proof.Machine
end

