-- ==== Sys2Proof/Certificates/Slice0/Obligations.lean ====
section
/-! DEFINITION. The statements for the provers, from the numbered rules of spec/. -/

open Sys2Proof Sys2Proof.Machine

/-! ### Reset -/

/-- 70_reset_and_hazards.md R201: the reset state, row by row, for every configuration, and with the default masks of
R103 for `State.reset`. -/
def Obligations.ResetStateHoldsSpecValues : Prop :=
  (∀ cfg : Config,
    (∀ i : Fin 3, (State.resetWith cfg).db.get? i.val = some ⟨32, false⟩) ∧
    (State.resetWith cfg).scan = 0 ∧
    (∀ i : Fin 3, (State.resetWith cfg).swin.get? i.val = some 0) ∧
    (State.resetWith cfg).wcur = 0 ∧
    (State.resetWith cfg).res = 0 ∧
    (State.resetWith cfg).out = ⟨cfg.blankA, cfg.blankB, cfg.blankC, 0⟩ ∧
    (State.resetWith cfg).port = [] ∧
    (State.resetWith cfg).cfg = cfg) ∧
  State.reset.out = ⟨0x07, 0x07, 0x03, 0⟩ ∧
  (∀ i : Fin 3, (State.reset.db.get? i.val).map Slot.pack = some 0x20)

/-- 40_glyph_table.md R103, R104: the default configuration is admissible. -/
def Obligations.DefaultConfigurationIsAdmissible : Prop := defaultConfig.Admissible

/-- 70_reset_and_hazards.md R200: an asserted `rst` takes every register to its reset value and discards a partly
received command, whatever the state; also when the bytes received before it are the beginning of a command. That the
record of ticks and the host's later inputs stay is the model's choice (log 6). -/
def Obligations.RstTakesTheResetState : Prop :=
  (∀ (s : State) (es : List HostEvent), s.hostIn = .rst :: es →
    step s = .next { State.resetWith s.cfg with hostIn := es, trace := s.trace }) ∧
  (∀ (s : State) (b : Byte) (bs : List Byte) (es : List HostEvent),
    s.hostIn = presents (b :: bs) ++ .rst :: es → decode (s.port ++ b :: bs) = .incomplete →
    ∃ m, step s = .next m ∧ m.port = s.port ++ b :: bs ∧
      step m = .next { State.resetWith s.cfg with hostIn := es, trace := s.trace })

/-- The reset state of every configuration is legal. -/
def Obligations.ResetStateIsLegal : Prop := ∀ cfg : Config, (State.resetWith cfg).Legal

/-! ### The whole machine -/

/-- Every step from a legal state gives a legal state: slots hold a glyph of the table or blank (10_state.md R22), SCAN
and WCUR are 0..2 (R31, R32), ANODE is 000 or one-hot (R36), unused lines are 0 (R35), the port holds no complete
command (R39), and no recorded tick ghosts (70_reset_and_hazards.md R213). -/
def Obligations.EveryStepKeepsTheStateLegal : Prop :=
  ∀ s t : State, s.Legal → step s = .next t → t.Legal

/-- 60_exceptions.md R180: no operation and no step can stop: from a legal state each answers a next state. -/
def Obligations.LegalStatesNeverStop : Prop :=
  ∀ s : State, s.Legal → (∀ i : Instr, ∃ t, exec i s = .next t) ∧ ∃ t, step s = .next t

/-- 60_exceptions.md R180, 70_reset_and_hazards.md R215: whatever the host does, a run from a legal state never stops,
and all its states are legal. -/
def Obligations.RunsNeverStopAndStayLegal : Prop :=
  ∀ (k : Nat) (s : State), s.Legal → ∃ t : State, Sys2Proof.core.run k s = .next t ∧ t.Legal

/-- 40_glyph_table.md R104, 20_memory.md R60: no step changes the configuration, a reset among them. -/
def Obligations.NoStepChangesTheConfiguration : Prop :=
  ∀ s t : State, step s = .next t → t.cfg = s.cfg

/-- 10_state.md R33, the columns "written by": which operations may change each register; and 20_memory.md R57: the
outputs change during no operation but `scan_tick`. The record of ticks changes with the outputs; the configuration, the
port and the host's inputs change in no operation (the model's own fields, logs 1, 3, 7). -/
def Obligations.OnlyTheListedOperationsWriteEachRegister : Prop :=
  ∀ (i : Instr) (s t : State), exec i s = .next t →
    (t.db ≠ s.db → (∃ x, i = .parseText x) ∨ (∃ v m, i = .renderInt v m) ∨ ∃ p, i = .setDecimalPoint p) ∧
    (t.scan ≠ s.scan → (∃ x, i = .parseText x) ∨ (∃ v m, i = .renderInt v m) ∨ i = .scanTick) ∧
    (t.swin ≠ s.swin → ∃ v, i = .rollingStore v) ∧
    (t.wcur ≠ s.wcur → ∃ v, i = .rollingStore v) ∧
    (t.res ≠ s.res → (∃ a b c, i = .medianOfThree a b c) ∨ i = .rollingAverage) ∧
    (t.out ≠ s.out → i = .scanTick) ∧
    (t.trace ≠ s.trace → i = .scanTick) ∧
    t.cfg = s.cfg ∧ t.port = s.port ∧ t.hostIn = s.hostIn

/-- 10_state.md R35: with an admissible configuration, whose patterns name only segment lines (40_glyph_table.md R104),
lines outside BLANK_X and the decimal-point line keep their value in every operation. -/
def Obligations.UnusedLinesNeverChange : Prop :=
  ∀ (i : Instr) (s t : State) (x : SegGroup), s.cfg.Admissible → exec i s = .next t → unusedLines t x = unusedLines s x

/-- 42_scanner.md R149 (c), 70_reset_and_hazards.md R202: from reset, any sequence of operations without a `scan_tick`
leaves every digit and every segment dark. -/
def Obligations.DisplayIsDarkUntilTheFirstTick : Prop :=
  ∀ (cfg : Config) (is : List Instr) (t : State), .scanTick ∉ is →
    execAll is (State.resetWith cfg) = .next t → t.out = ⟨cfg.blankA, cfg.blankB, cfg.blankC, 0⟩ ∧ t.trace = []

/-! ### Encoding and the command port -/

/-- 30_encoding.md R73 to R77, R81: decoding the bytes of any well-formed instruction, whatever follows them, gives it
back with every operand. -/
def Obligations.DecodeOfEncodeIsTheInstruction : Prop :=
  ∀ (i : Instr) (rest : List Byte), i.WellFormed → decode (encode i ++ rest) = .command i rest

/-- The other direction: a decoded command is well-formed and its bytes are those the encoder writes, but for the
ignored bits 7:1 of the flags byte of `render_int` (30_encoding.md R75). -/
def Obligations.DecodedBytesAreTheEncoding : Prop :=
  ∀ (bs rest : List Byte) (i : Instr), decode bs = .command i rest →
    i.WellFormed ∧
    (bs = encode i ++ rest ∨
      ∃ (v : Value) (m : Bool) (flags : Byte), i = .renderInt v m ∧ flags.getLsbD 0 = m ∧
        bs = 0x02 :: flags :: lowByte v :: highByte v :: rest)

/-- 30_encoding.md R83: the opcode byte alone gives the command's length. -/
def Obligations.CommandLengthFollowsTheOpcode : Prop :=
  ∀ (op : Byte) (bs : List Byte),
    (op = 0x04 ∨ op = 0x07 → (decode (op :: bs)).rest? = some bs) ∧
    (op = 0x03 → (decode (op :: bs)).rest? = if bs.length < 1 then none else some (bs.drop 1)) ∧
    (op = 0x06 → (decode (op :: bs)).rest? = if bs.length < 2 then none else some (bs.drop 2)) ∧
    (op = 0x02 → (decode (op :: bs)).rest? = if bs.length < 3 then none else some (bs.drop 3)) ∧
    (op = 0x05 → (decode (op :: bs)).rest? = if bs.length < 6 then none else some (bs.drop 6)) ∧
    (op = 0x01 → (∀ text rest : List Byte, 0x00 ∉ text → bs = text ++ 0x00 :: rest →
        (decode (op :: bs)).rest? = some rest) ∧
      (0x00 ∉ bs → (decode (op :: bs)).rest? = none)) ∧
    (op = 0x00 ∨ 8 ≤ op.toNat → decode (op :: bs) = .reserved op bs)

/-- 30_encoding.md R75: format R, with the reserved bits of the flags byte ignored by the block and written 0 by the
assembler. -/
def Obligations.RenderFormatIgnoresReservedBits : Prop :=
  (∀ (flags lo hi : Byte) (rest : List Byte),
    decode (0x02 :: flags :: lo :: hi :: rest) = .command (.renderInt (hi ++ lo) (flags.getLsbD 0)) rest) ∧
  (∀ v : Value, encode (.renderInt v true) = [0x02, 0x01, v.extractLsb' 0 8, v.extractLsb' 8 8] ∧
    encode (.renderInt v false) = [0x02, 0x00, v.extractLsb' 0 8, v.extractLsb' 8 8])

/-- 30_encoding.md R81, 20_memory.md R53: a 16-bit operand is `hi * 256 + lo`; as the value of `render_int` it is read
as two's complement. -/
def Obligations.OperandsAreLittleEndian : Prop :=
  (∀ lo hi : Byte, (joinLE lo hi).toNat = hi.toNat * 256 + lo.toNat ∧
    valueOf (joinLE lo hi) =
      if hi.toNat < 128 then (hi.toNat * 256 + lo.toNat : Int) else (hi.toNat * 256 + lo.toNat : Int) - 65536) ∧
  valueOf 0xFFFB = -5 ∧ valueOf 0x8000 = -32768 ∧ (0xFFFB : Sample).toNat = 65531

/-- 30_encoding.md R86: the worked encodings, both ways. -/
def Obligations.WorkedEncodingsAgree : Prop :=
  ∀ p ∈ [(Instr.parseText [0x31, 0x2E, 0x32, 0x32], ([0x01, 0x31, 0x2E, 0x32, 0x32, 0x00] : List Byte)),
      (.parseText [0x2D, 0x2D, 0x45], [0x01, 0x2D, 0x2D, 0x45, 0x00]),
      (.renderInt (BitVec.ofInt 16 (-5)) false, [0x02, 0x00, 0xFB, 0xFF]),
      (.renderInt 1000 true, [0x02, 0x01, 0xE8, 0x03]),
      (.renderInt 1500 false, [0x02, 0x00, 0xDC, 0x05]),
      (.setDecimalPoint 1, [0x03, 0x01]),
      (.scanTick, [0x04]),
      (.medianOfThree 5 1 9, [0x05, 0x05, 0x00, 0x01, 0x00, 0x09, 0x00]),
      (.rollingStore 10, [0x06, 0x0A, 0x00]),
      (.rollingAverage, [0x07])],
    encode p.1 = p.2 ∧ decode p.2 = .command p.1 []

/-- 30_encoding.md R71: when the bytes in the port and the next bytes presented are one command, the step is that
operation, on the state with the port empty and nothing after its last byte accepted. -/
def Obligations.StepRunsTheDecodedCommand : Prop :=
  ∀ (s : State) (i : Instr) (bs : List Byte) (es : List HostEvent),
    s.hostIn = presents bs ++ es → bs ≠ [] → decode (s.port ++ bs) = .command i [] →
    step s = exec i { s with port := [], hostIn := es }

/-- 30_encoding.md R82: a reserved opcode is a one-byte command that changes no state; the block goes on to the next
byte. -/
def Obligations.ReservedOpcodesAreDiscarded : Prop :=
  ∀ (s : State) (op : Byte) (es : List HostEvent), s.port = [] → s.hostIn = .byte op :: es → op = 0 ∨ 8 ≤ op.toNat →
    step s = .next { s with hostIn := es }

/-- 30_encoding.md R72: a command that arrives in two parts. The first part is held and changes no architectural state;
when the second part comes, the operation runs as if the command had come whole. -/
def Obligations.SplitCommandIsHeldThenRuns : Prop :=
  ∀ (s : State) (i : Instr) (p q : List Byte) (es : List HostEvent), i.WellFormed → encode i = p ++ q → q ≠ [] →
    s.port = [] →
    step { s with hostIn := presents p } = .next { s with port := p, hostIn := [] } ∧
    step { s with port := p, hostIn := presents q ++ es } = exec i { s with hostIn := es } ∧
    step { s with hostIn := presents (p ++ q) ++ es } = exec i { s with hostIn := es }

/-- 30_encoding.md R72, 42_scanner.md R150: with no more input and no complete command the block waits for ever, its
state unchanged. -/
def Obligations.IncompleteCommandWaitsForEver : Prop :=
  ∀ (k : Nat) (s : State), s.hostIn = [] → decode s.port = .incomplete → Sys2Proof.core.run k s = .next s

/-- 20_memory.md R56, 30_encoding.md R71: running the concatenated bytes of a sequence of well-formed commands, one step
a command, gives what the fold of the operations' transitions over the sequence gives. -/
def Obligations.CommandStreamIsTheFoldOfOperations : Prop :=
  ∀ (is : List Instr) (s : State), (∀ i ∈ is, i.WellFormed) → s.port = [] →
    Sys2Proof.core.run is.length { s with hostIn := presents (encodeAll is) } = execAll is { s with hostIn := [] }

/-- A table word placed by `withFetchWord` is the instruction the very next step runs (log 4). -/
def Obligations.FetchedWordIsExecutedNext : Prop :=
  ∀ (s : State) (nbits w : Nat) (i : Instr), decodeTableWord nbits w = some i →
    step (s.withFetchWord nbits w) = exec i { s with port := [] }

/-! ### The formatter -/

/-- 30_encoding.md R78 to R80: the glyph of every accepted character, and nothing for every other code. -/
def Obligations.CharacterTable : Prop :=
  (∀ d : Fin 10, glyphOf (BitVec.ofNat 8 (0x30 + d.val)) = some (BitVec.ofNat 6 d.val)) ∧
  (∀ d : Fin 6, glyphOf (BitVec.ofNat 8 (0x61 + d.val)) = some (BitVec.ofNat 6 (10 + d.val)) ∧
    glyphOf (BitVec.ofNat 8 (0x41 + d.val)) = some (BitVec.ofNat 6 (10 + d.val))) ∧
  glyphOf 0x2D = some 16 ∧ glyphOf 0x68 = some 17 ∧ glyphOf 0x48 = some 17 ∧ glyphOf 0x20 = some 32 ∧
  (∀ ch : Byte, glyphOf ch = none ↔
    ch.toNat ≤ 0x1F ∨ (0x21 ≤ ch.toNat ∧ ch.toNat ≤ 0x2C) ∨ ch.toNat = 0x2E ∨ ch.toNat = 0x2F ∨
    (0x3A ≤ ch.toNat ∧ ch.toNat ≤ 0x40) ∨ ch.toNat = 0x47 ∨ (0x49 ≤ ch.toNat ∧ ch.toNat ≤ 0x60) ∨
    ch.toNat = 0x67 ∨ 0x69 ≤ ch.toNat)

/-- 41_formatter.md R110, R115, R116: `parse_text` completes on every text in every state, writes legal slots that
depend on the text alone, sets SCAN to 0 and changes nothing else. -/
def Obligations.ParseTextRewritesTheBuffer : Prop :=
  ∀ text : List Byte, ∃ db : Triple Slot, LegalBuffer db ∧
    ∀ s : State, exec (.parseText text) s = .next { s with db := db, scan := 0 }

/-- 41_formatter.md R114: a character of class "other" is skipped without consuming a slot or advancing the count. -/
def Obligations.ParseTextSkipsOtherCharacters : Prop :=
  (∀ (pre post : List Byte) (ch : Byte) (s : State), Skipped ch →
    exec (.parseText (pre ++ ch :: post)) s = exec (.parseText (pre ++ post)) s) ∧
  (∀ (pre post : List Byte) (ch : Byte), Skipped ch → slotsProduced (pre ++ ch :: post) = slotsProduced (pre ++ post)) ∧
  (∀ s : State,
    exec (.parseText [0x31, 0x78, 0x2E, 0x32]) s =
      .next { s with db := ⟨⟨32, false⟩, ⟨1, true⟩, ⟨2, false⟩⟩, scan := 0 } ∧
    exec (.parseText [0x31, 0x78, 0x32, 0x79, 0x33, 0x7A, 0x34]) s =
      .next { s with db := ⟨⟨1, false⟩, ⟨2, false⟩, ⟨3, false⟩⟩, scan := 0 } ∧
    exec (.parseText [0x47, 0x31, 0x32]) s =
      .next { s with db := ⟨⟨32, false⟩, ⟨1, false⟩, ⟨2, false⟩⟩, scan := 0 })

/-- 41_formatter.md R112: scanning stops as soon as three slots have been produced; a dot does not count, but for the
placeholder it produces. -/
def Obligations.ParseTextStopsAfterThreeSlots : Prop :=
  (∀ text : List Byte, slotsProduced text ≤ 3) ∧
  (∀ (pre post : List Byte) (s : State), slotsProduced pre = 3 →
    exec (.parseText (pre ++ post)) s = exec (.parseText pre) s) ∧
  slotsProduced [0x2E] = 1 ∧ slotsProduced [0x31, 0x2E] = 1 ∧
  (∀ s : State,
    exec (.parseText [0x31, 0x2E, 0x32, 0x32]) s =
      .next { s with db := ⟨⟨1, true⟩, ⟨2, false⟩, ⟨2, false⟩⟩, scan := 0 } ∧
    exec (.parseText [0x31, 0x32, 0x32, 0x2E]) s =
      .next { s with db := ⟨⟨1, false⟩, ⟨2, false⟩, ⟨2, false⟩⟩, scan := 0 })

/-- 41_formatter.md R111, R113, R115, one more character at a time: while fewer than three slots exist, a
slot-producing character shifts the right-aligned buffer left and enters on the right, and a dot sets the point of the
rightmost slot, which is the most recent slot or, if there is none yet, becomes the placeholder. -/
def Obligations.ParseTextTakesOneMoreCharacter : Prop :=
  ∀ (pre : List Byte) (s t : State), (Instr.parseText pre).WellFormed → slotsProduced pre < 3 →
    exec (.parseText pre) s = .next t →
    (∀ (ch : Byte) (g : GlyphNum), ch ≠ 0x2E → glyphOf ch = some g →
      slotsProduced (pre ++ [ch]) = slotsProduced pre + 1 ∧
      exec (.parseText (pre ++ [ch])) s = .next { t with db := ⟨t.db.s1, t.db.s2, ⟨g, false⟩⟩ }) ∧
    (slotsProduced (pre ++ [0x2E]) = max 1 (slotsProduced pre) ∧
      exec (.parseText (pre ++ [0x2E])) s = .next { t with db := { t.db with s2 := ⟨t.db.s2.glyph, true⟩ } })

/-- The source's examples of `parse_text` (95_test_vectors.md S2 to S4) and those of 41_formatter.md R113 and R115. -/
def Obligations.ParseTextExamples : Prop :=
  ∀ p ∈ [(([] : List Byte), ([0x20, 0x20, 0x20] : List Byte)),
      ([0x31, 0x2E, 0x32, 0x32], [0x81, 0x02, 0x02]),
      ([0x2E, 0x35], [0x20, 0xA0, 0x05]),
      ([0x31, 0x2E, 0x2E, 0x32], [0x20, 0x81, 0x02]),
      ([0x20, 0x2E, 0x35], [0x20, 0xA0, 0x05]),
      ([0x2E, 0x2E], [0x20, 0x20, 0xA0]),
      ([0x39], [0x20, 0x20, 0x09]),
      ([0x31, 0x32], [0x20, 0x01, 0x02]),
      ([0x41, 0x62, 0x43, 0x64], [0x0A, 0x0B, 0x0C])],
    ∀ s : State, ∃ t : State, exec (.parseText p.1) s = .next t ∧ packedBuffer t.db = p.2 ∧ t.scan = 0

/-- 41_formatter.md R124: the complete result table of `render_int`; in each row nothing but DB and SCAN changes. -/
def Obligations.RenderIntResultTable : Prop :=
  ∀ (v : Value) (s : State) (h t u : GlyphNum) (x mag : Int),
    x = v.toInt → mag = (if x < 0 then -x else if 999 < x then x / 10 else x) →
    h = BitVec.ofInt 6 (mag / 100) → t = BitVec.ofInt 6 (mag / 10 % 10) → u = BitVec.ofInt 6 (mag % 10) →
    (∀ m : Bool, x < -99 →
      exec (.renderInt v m) s = .next { s with db := ⟨⟨16, false⟩, ⟨16, false⟩, ⟨14, false⟩⟩, scan := 0 }) ∧
    (-99 ≤ x → x ≤ -10 →
      exec (.renderInt v false) s = .next { s with db := ⟨⟨16, false⟩, ⟨t, false⟩, ⟨u, false⟩⟩, scan := 0 } ∧
      exec (.renderInt v true) s = .next { s with db := ⟨⟨16, true⟩, ⟨t, false⟩, ⟨u, false⟩⟩, scan := 0 }) ∧
    (-9 ≤ x → x ≤ -1 →
      exec (.renderInt v false) s = .next { s with db := ⟨⟨32, false⟩, ⟨16, false⟩, ⟨u, false⟩⟩, scan := 0 } ∧
      exec (.renderInt v true) s = .next { s with db := ⟨⟨0, true⟩, ⟨16, false⟩, ⟨u, false⟩⟩, scan := 0 }) ∧
    (x = 0 →
      exec (.renderInt v false) s = .next { s with db := ⟨⟨32, false⟩, ⟨32, false⟩, ⟨0, false⟩⟩ } ∧
      exec (.renderInt v true) s = .next { s with db := ⟨⟨0, false⟩, ⟨0, false⟩, ⟨0, false⟩⟩ }) ∧
    (1 ≤ x → x ≤ 9 →
      exec (.renderInt v false) s = .next { s with db := ⟨⟨32, false⟩, ⟨32, false⟩, ⟨u, false⟩⟩, scan := 0 } ∧
      exec (.renderInt v true) s = .next { s with db := ⟨⟨0, true⟩, ⟨0, false⟩, ⟨u, false⟩⟩, scan := 0 }) ∧
    (10 ≤ x → x ≤ 99 →
      exec (.renderInt v false) s = .next { s with db := ⟨⟨32, false⟩, ⟨t, false⟩, ⟨u, false⟩⟩, scan := 0 } ∧
      exec (.renderInt v true) s = .next { s with db := ⟨⟨0, true⟩, ⟨t, false⟩, ⟨u, false⟩⟩, scan := 0 }) ∧
    (100 ≤ x → x ≤ 999 →
      exec (.renderInt v false) s = .next { s with db := ⟨⟨h, false⟩, ⟨t, false⟩, ⟨u, false⟩⟩, scan := 0 } ∧
      exec (.renderInt v true) s = .next { s with db := ⟨⟨h, true⟩, ⟨t, false⟩, ⟨u, false⟩⟩, scan := 0 }) ∧
    (999 < x →
      exec (.renderInt v false) s = .next { s with db := ⟨⟨16, false⟩, ⟨16, false⟩, ⟨14, false⟩⟩, scan := 0 }) ∧
    (1000 ≤ x → x ≤ 9999 →
      exec (.renderInt v true) s = .next { s with db := ⟨⟨h, false⟩, ⟨t, true⟩, ⟨u, false⟩⟩, scan := 0 }) ∧
    (9999 < x →
      exec (.renderInt v true) s = .next { s with db := ⟨⟨16, false⟩, ⟨16, false⟩, ⟨14, false⟩⟩, scan := 0 })

/-- 41_formatter.md R118: outside -99..999, in meter mode after one truncating division by 10 of a value above 999,
`render_int` behaves exactly as `parse_text("--E")`; and in meter mode 1000..9999 is shown as `value div 10` with the
decimal point on DB[1]. -/
def Obligations.RenderIntRangeCheckAndMeterStep : Prop :=
  (∀ (v : Value) (s : State), (v.toInt < -99 ∨ 999 < v.toInt →
      exec (.renderInt v false) s = exec (.parseText [0x2D, 0x2D, 0x45]) s) ∧
    (v.toInt < -99 ∨ 9999 < v.toInt →
      exec (.renderInt v true) s = exec (.parseText [0x2D, 0x2D, 0x45]) s)) ∧
  (∀ s : State, exec (.parseText [0x2D, 0x2D, 0x45]) s =
      .next { s with db := ⟨⟨16, false⟩, ⟨16, false⟩, ⟨14, false⟩⟩, scan := 0 }) ∧
  (∀ (v : Value) (s t : State), 1000 ≤ v.toInt → v.toInt ≤ 9999 →
    exec (.renderInt (BitVec.ofInt 16 (v.toInt / 10)) false) s = .next t →
    exec (.renderInt v true) s = .next { t with db := { t.db with s1 := ⟨t.db.s1.glyph, true⟩ } })

/-- 20_memory.md R55, 70_reset_and_hazards.md R210: `parse_text` and `render_int` forget the old buffer, so a point set
before does not survive, but for what `render_int` leaves of SCAN. -/
def Obligations.RewritesForgetTheOldBuffer : Prop :=
  ∀ (s s' : State) (p : Byte), exec (.setDecimalPoint p) s = .next s' →
    (∀ text : List Byte, exec (.parseText text) s' = exec (.parseText text) s) ∧
    (∀ (v : Value) (m : Bool), exec (.renderInt v m) s' = exec (.renderInt v m) s)

/-- 41_formatter.md R126: `set_decimal_point` sets the point of one slot, out-of-range positions are no-ops, and nothing
else changes. -/
def Obligations.SetDecimalPointSetsOnePoint : Prop :=
  ∀ (p : Byte) (s : State), ∃ db : Triple Slot, exec (.setDecimalPoint p) s = .next { s with db := db } ∧
    (∀ (k : Nat) (slot : Slot), s.db.get? k = some slot →
      db.get? k = some (if k = p.toNat then ⟨slot.glyph, true⟩ else slot)) ∧
    (2 < p.toNat → exec (.setDecimalPoint p) s = .next s)

/-- 41_formatter.md R127: calls are idempotent and accumulate, and no operation clears a single point. -/
def Obligations.DecimalPointsAccumulate : Prop :=
  (∀ (p : Byte) (s t : State), exec (.setDecimalPoint p) s = .next t → exec (.setDecimalPoint p) t = .next t) ∧
  (∀ (p q : Byte) (s t w : State) (k : Nat) (slot : Slot), k = p.toNat ∨ k = q.toNat → w.db.get? k = some slot →
    exec (.setDecimalPoint p) s = .next t → exec (.setDecimalPoint q) t = .next w → slot.dp = true) ∧
  (∀ (i : Instr) (s t : State) (k : Nat) (slot : Slot),
    (∀ text, i ≠ .parseText text) → (∀ v m, i ≠ .renderInt v m) → exec i s = .next t →
    s.db.get? k = some slot → ∃ slot' : Slot, t.db.get? k = some slot' ∧ slot'.glyph = slot.glyph ∧
      (slot.dp = true → slot'.dp = true))

/-! ### The scanner -/

/-- 40_glyph_table.md R100 to R102: `lookup` is total on 0..17, and answers nothing elsewhere, the blank sentinel
included. -/
def Obligations.LookupIsTheGlyphTable : Prop :=
  (∀ (cfg : Config) (g : Fin 18),
    lookup cfg (BitVec.ofNat 6 g.val) = some ⟨cfg.romA[g], cfg.romB[g], cfg.romC[g]⟩) ∧
  (∀ (cfg : Config) (g : GlyphNum), 18 ≤ g.toNat → lookup cfg g = none) ∧
  lookup defaultConfig 5 = some ⟨0x05, 0x05, 0x01⟩

/-- 42_scanner.md R142 to R148: a `scan_tick` on a legal slot completes; its five phases follow the steps in order, the
outputs end as P5, SCAN advances, and nothing else changes. -/
def Obligations.ScanTickFollowsItsSixSteps : Prop :=
  ∀ (s : State) (slot : Slot), s.db.get? s.scan.toNat = some slot → slot.Legal →
    ∃ ph : TickPhases,
      exec .scanTick s = .next { s with
        out := ph.p5
        scan := if s.scan = 0 then 1 else if s.scan = 1 then 2 else 0
        trace := s.trace ++ [ph] } ∧
      ph.p1 = { s.out with anode := 0 } ∧
      ph.p2 = { ph.p1 with
        a := ph.p1.a ||| s.cfg.blankA
        b := ph.p1.b ||| s.cfg.blankB
        c := ph.p1.c ||| s.cfg.blankC } ∧
      (slot.glyph = 32 → ph.p3 = ph.p2) ∧
      (∀ g : Fin 18, slot.glyph = BitVec.ofNat 6 g.val → ph.p3 = { ph.p2 with
        a := ph.p2.a &&& ~~~s.cfg.romA[g]
        b := ph.p2.b &&& ~~~s.cfg.romB[g]
        c := ph.p2.c &&& ~~~s.cfg.romC[g] }) ∧
      ph.p4.anode = ph.p3.anode ∧
      (∀ x : SegGroup, ph.p4.lines x =
        if x ≠ s.cfg.dpGroup then ph.p3.lines x
        else if slot.dp then ph.p3.lines x &&& ~~~s.cfg.dpMask else ph.p3.lines x ||| s.cfg.dpMask) ∧
      ph.p5 = { ph.p4 with anode := if s.scan = 0 then 0b001 else if s.scan = 1 then 0b010 else 0b100 }

/-- 42_scanner.md R149 (e): with an admissible configuration the end-of-tick output depends on the slot shown alone: a
segment line other than the decimal-point line is low exactly if the glyph's pattern names it, the decimal-point line is
low exactly if dp is set, and every other line is unchanged. -/
def Obligations.EndOfTickShowsTheSlot : Prop :=
  ∀ (s t : State) (slot : Slot) (x : SegGroup) (k : Nat), s.cfg.Admissible → k < 8 →
    s.db.get? s.scan.toNat = some slot → exec .scanTick s = .next t →
    ((s.cfg.pointOf x).getLsbD k = true → (t.out.lines x).getLsbD k = !slot.dp) ∧
    ((s.cfg.pointOf x).getLsbD k = false → (s.cfg.blankOf x).getLsbD k = true →
      (slot.glyph = 32 → (t.out.lines x).getLsbD k = true) ∧
      (∀ g : Fin 18, slot.glyph = BitVec.ofNat 6 g.val →
        (t.out.lines x).getLsbD k = !((s.cfg.romOf x)[g]).getLsbD k)) ∧
    ((s.cfg.pointOf x).getLsbD k = false → (s.cfg.blankOf x).getLsbD k = false →
      (t.out.lines x).getLsbD k = (s.out.lines x).getLsbD k)

/-- 42_scanner.md R149 (d): three consecutive ticks from a legal state show each digit exactly once and come back to the
same scanner state; from SCAN = 0 they show digits 0, 1, 2 in order. -/
def Obligations.ThreeTicksShowEachDigitOnce : Prop :=
  ∀ s : State, s.Legal → ∃ a b c : State,
    exec .scanTick s = .next a ∧ exec .scanTick a = .next b ∧ exec .scanTick b = .next c ∧
    (∀ d : Anode, d = 1 ∨ d = 2 ∨ d = 4 → [a.out.anode, b.out.anode, c.out.anode].count d = 1) ∧
    c.scan = s.scan ∧
    (s.scan = 0 → a.out.anode = 0b001 ∧ b.out.anode = 0b010 ∧ c.out.anode = 0b100)

/-- 70_reset_and_hazards.md R207: after `parse_text`, or `render_int` of a value that is not 0, the next tick shows
digit 0; the outputs stay until then; `render_int` of 0 and `set_decimal_point` do not restart the scan. -/
def Obligations.RewriteRestartsTheScan : Prop :=
  ∀ (i : Instr) (s t : State), s.Legal → exec i s = .next t →
    ((∃ text, i = .parseText text) ∨ (∃ v m, v ≠ 0 ∧ i = .renderInt v m) →
      t.out = s.out ∧ ∃ w, exec .scanTick t = .next w ∧ w.out.anode = 0b001 ∧ w.scan = 1) ∧
    ((∃ m, i = .renderInt 0 m) ∨ (∃ p, i = .setDecimalPoint p) → t.scan = s.scan)

/-- 40_glyph_table.md R102: a tick that would look up an invalid index faults, and gives it no value. -/
def Obligations.InvalidGlyphFaults : Prop :=
  ∀ (s : State) (slot : Slot), s.db.get? s.scan.toNat = some slot → ¬ slot.Legal →
    exec .scanTick s = .fault .invalidGlyph

/-- The model's choice where SCAN or WCUR is 3, which the spec calls unreachable (20_memory.md R51, log 8): the one
operation that would index a slot 3 faults. -/
def Obligations.CounterValueThreeFaults : Prop :=
  (∀ s : State, s.scan = 3 → exec .scanTick s = .fault .scanOutOfRange) ∧
  (∀ (s : State) (v : Sample), s.wcur = 3 → exec (.rollingStore v) s = .fault .cursorOutOfRange)

/-- 10_state.md R41, 42_scanner.md R142, R146: seen as Segment Driver calls, every recorded tick first deactivates all
anodes, then only sets group patterns, and last selects the digit shown. -/
def Obligations.TickAsDriverCalls : Prop :=
  ∀ s t : State, s.Legal → exec .scanTick s = .next t →
    ∃ (ph : TickPhases) (sets : List DriverCall), t.trace = s.trace ++ [ph] ∧
      ph.driverCalls = [.deactivateAllAnodes] ++ sets ++ [.selectActiveDigit s.scan.toNat] ∧
      ∀ c ∈ sets, ∃ x bits, c = .setGroupPattern x bits

/-- 10_state.md R23: the byte form of a slot: bit 7 is dp, bit 6 is 0, bits 5:0 are the glyph. -/
def Obligations.SlotByteForm : Prop :=
  (∀ slot : Slot, slot.pack.getLsbD 7 = slot.dp ∧ slot.pack.getLsbD 6 = false ∧ slot.pack.extractLsb' 0 6 = slot.glyph) ∧
  Slot.pack ⟨32, false⟩ = 0x20 ∧ Slot.pack ⟨32, true⟩ = 0xA0 ∧ Slot.pack ⟨5, true⟩ = 0x85

/-! ### The sample filter -/

/-- 43_sample_filter.md R161, R163: `median_of_three` completes in every state and changes RES alone; the result is one
of the operands, at least two operands are at most it and at least two at least it, it is their sum less the least and
the greatest, does not depend on their order, lies between them, and a single outlier never comes out. -/
def Obligations.MedianIsTheMiddleValue : Prop :=
  ∀ (a b c : Sample), ∃ m : Sample, (∀ s : State, exec (.medianOfThree a b c) s = .next { s with res := m }) ∧
    m ∈ [a, b, c] ∧
    2 ≤ [a, b, c].countP (· ≤ m) ∧ 2 ≤ [a, b, c].countP (m ≤ ·) ∧
    (m.toNat : Int) = a.toNat + b.toNat + c.toNat - (min a.toNat (min b.toNat c.toNat) : Nat)
      - (max a.toNat (max b.toNat c.toNat) : Nat) ∧
    (∀ (x y z : Sample) (s : State), [x, y, z].Perm [a, b, c] → exec (.medianOfThree x y z) s = .next { s with res := m }) ∧
    min a.toNat (min b.toNat c.toNat) ≤ m.toNat ∧ m.toNat ≤ max a.toNat (max b.toNat c.toNat) ∧
    (∀ lo hi : Sample, 2 ≤ [a, b, c].countP (fun x => lo ≤ x ∧ x ≤ hi) → lo ≤ m ∧ m ≤ hi) ∧
    (a = 0 → b = 0 → c = 9 → m = 0)

/-- 43_sample_filter.md R162: if two or three operands are equal, the equal value is the result. -/
def Obligations.MedianTiesGiveTheSharedValue : Prop :=
  ∀ (x y : Sample) (s : State),
    exec (.medianOfThree x x y) s = .next { s with res := x } ∧
    exec (.medianOfThree x y x) s = .next { s with res := x } ∧
    exec (.medianOfThree y x x) s = .next { s with res := x }

/-- 43_sample_filter.md R164: `rolling_store` writes the slot at the cursor and advances the cursor with wraparound;
nothing else changes. -/
def Obligations.RollingStoreWritesTheCursorSlot : Prop :=
  ∀ (v : Sample) (s : State), s.wcur.toNat ≤ 2 →
    ∃ w : Triple Sample,
      exec (.rollingStore v) s = .next { s with
        swin := w
        wcur := if s.wcur = 0 then 1 else if s.wcur = 1 then 2 else 0 } ∧
      ∀ k : Nat, w.get? k = if k = s.wcur.toNat then some v else s.swin.get? k

/-- 43_sample_filter.md R166, R167: `rolling_average` completes in every state and changes RES alone: 0 if all three
slots are zero, else the exact sum of the slots divided by the number of nonzero ones, truncating. -/
def Obligations.RollingAverageSkipsZeros : Prop :=
  ∀ s : State, ∃ r : Sample, exec .rollingAverage s = .next { s with res := r } ∧
    (s.swin = ⟨0, 0, 0⟩ → r = 0) ∧
    (s.swin ≠ ⟨0, 0, 0⟩ →
      r.toNat = (s.swin.s0.toNat + s.swin.s1.toNat + s.swin.s2.toNat) /
        [s.swin.s0, s.swin.s1, s.swin.s2].countP (· ≠ 0))

/-- 43_sample_filter.md R167: the result is 0 only if all slots are 0; [0, 0, 9] averages to 9; when some slot is
nonzero the result lies between the smallest nonzero slot and the largest slot. -/
def Obligations.RollingAverageBounds : Prop :=
  ∀ s t : State, exec .rollingAverage s = .next t →
    (t.res = 0 ↔ s.swin = ⟨0, 0, 0⟩) ∧
    (s.swin = ⟨0, 0, 9⟩ → t.res = 9) ∧
    (∀ lo hi : Nat, s.swin ≠ ⟨0, 0, 0⟩ →
      (∀ x ∈ [s.swin.s0, s.swin.s1, s.swin.s2], x ≠ 0 → lo ≤ x.toNat) →
      (∀ x ∈ [s.swin.s0, s.swin.s1, s.swin.s2], x.toNat ≤ hi) → lo ≤ t.res.toNat ∧ t.res.toNat ≤ hi)

/-- 43_sample_filter.md R165 (a), (c): three stores replace the whole window, wherever the cursor stands, so the average
after them is the average of the three values stored, in any order. -/
def Obligations.AverageAfterThreeStores : Prop :=
  ∀ (s s' : State) (x y z x' y' z' : Sample), s.wcur.toNat ≤ 2 → s'.wcur.toNat ≤ 2 → [x', y', z'].Perm [x, y, z] →
    ∃ t t' : State,
      execAll [.rollingStore x, .rollingStore y, .rollingStore z, .rollingAverage] s = .next t ∧
      execAll [.rollingStore x', .rollingStore y', .rollingStore z', .rollingAverage] s' = .next t' ∧
      t.wcur = s.wcur ∧ t'.res = t.res

/-- The source's examples of the filter (95_test_vectors.md S9, S10; 43_sample_filter.md R161, R166). -/
def Obligations.FilterExamples : Prop :=
  ∀ s : State,
    exec (.medianOfThree 5 1 9) s = .next { s with res := 5 } ∧
    exec (.medianOfThree 3 3 7) s = .next { s with res := 3 } ∧
    exec .rollingAverage { s with swin := ⟨0, 0, 0⟩ } = .next { s with swin := ⟨0, 0, 0⟩, res := 0 } ∧
    exec .rollingAverage { s with swin := ⟨0, 5, 10⟩ } = .next { s with swin := ⟨0, 5, 10⟩, res := 7 }
end

