-- ==== Sys2Proof/Laws/Decode.lean ====
section
/-! SUPPORT. What the decoder and the encoder do, once for each function. -/

namespace Sys2Proof

@[simp] theorem opcodeOf_opcodeByte (o : Opcode) : opcodeOf (opcodeByte o) = some o := by cases o <;> rfl

/-- Only an opcode's own byte names it. -/
theorem opcodeOf_eq_some {b : Byte} {o : Opcode} (h : opcodeOf b = some o) : b = opcodeByte o := by
  revert b o
  decide

/-- The reserved opcodes (30_encoding.md R82) are the bytes that name no operation. -/
theorem opcodeOf_eq_none_iff (b : Byte) : opcodeOf b = none ↔ b = 0 ∨ 8 ≤ b.toNat := by
  revert b
  decide

@[simp] theorem decode_cons (op : Byte) (bs : List Byte) :
    decode (op :: bs) = match opcodeOf op with
      | some o => decodeOperands o bs
      | none => .reserved op bs := rfl

@[simp] theorem joinLE_lowByte_highByte (v : BitVec 16) : joinLE (lowByte v) (highByte v) = v := by
  have h := BitVec.extractLsb'_append_extractLsb'_eq_extractLsb' (x := v) (start₁ := 0) (len₁ := 8) (start₂ := 8)
    (len₂ := 8) rfl
  simpa [joinLE, lowByte, highByte] using h

@[simp] theorem lowByte_joinLE (lo hi : Byte) : lowByte (joinLE lo hi) = lo := BitVec.extractLsb'_append_eq_right

@[simp] theorem highByte_joinLE (lo hi : Byte) : highByte (joinLE lo hi) = hi := BitVec.extractLsb'_append_eq_left

@[simp] theorem meterFlag_flagsByte (m : Bool) : meterFlag (flagsByte m) = m := by cases m <;> rfl

/-- `readText` finds the first 0x00: what precedes it holds none, and reading depends on nothing after it. -/
theorem readText_eq_some {bs text rest : List Byte} (h : readText bs = some (text, rest)) :
    bs = text ++ 0 :: rest ∧ text.all (· != 0) = true := by
  induction bs generalizing text with
  | nil => simp [readText] at h
  | cons b bs ih =>
    rw [readText] at h
    by_cases hb : b = 0
    · rw [if_pos hb] at h
      obtain ⟨rfl, rfl⟩ : [] = text ∧ bs = rest := by simpa using h
      exact ⟨by rw [hb]; rfl, rfl⟩
    · rw [if_neg hb] at h
      cases heq : readText bs with
      | none => rw [heq] at h; cases h
      | some p =>
        rw [heq] at h
        obtain ⟨rfl, rfl⟩ : b :: p.1 = text ∧ p.2 = rest := by simpa using h
        obtain ⟨hbs, hall⟩ := ih heq
        exact ⟨by rw [hbs]; rfl, by rw [List.all_cons, hall, Bool.and_true]; exact bne_iff_ne.mpr hb⟩

theorem readText_append (text rest : List Byte) (h : text.all (· != 0) = true) :
    readText (text ++ 0 :: rest) = some (text, rest) := by
  induction text with
  | nil => rfl
  | cons b bs ih =>
    rw [List.all_cons, Bool.and_eq_true, bne_iff_ne] at h
    rw [List.cons_append, readText, if_neg h.1, ih h.2]

/-- There is no text before its terminator has come. -/
theorem readText_eq_none (bs : List Byte) (h : 0 ∉ bs) : readText bs = none := by
  induction bs with
  | nil => rfl
  | cons b bs ih =>
    rw [List.mem_cons, not_or] at h
    rw [readText, if_neg (Ne.symm h.1), ih h.2]

/-- An opcode's operands are read from the front alone: bytes after a complete command change nothing but the rest. -/
theorem decodeOperands_append {o : Opcode} {bs rest : List Byte} {i : Instr} (more : List Byte)
    (h : decodeOperands o bs = .command i rest) : decodeOperands o (bs ++ more) = .command i (rest ++ more) := by
  cases o
  case ptxt =>
    rw [decodeOperands] at h ⊢
    cases heq : readText bs with
    | none => rw [heq] at h; cases h
    | some p =>
      rw [heq] at h
      obtain ⟨rfl, rfl⟩ : Instr.parseText p.1 = i ∧ p.2 = rest := by simpa using h
      obtain ⟨rfl, hall⟩ := readText_eq_some heq
      rw [List.append_assoc, List.cons_append, readText_append _ _ hall]
  case scan => cases h; rfl
  case ravg => cases h; rfl
  case sdp => match bs, h with | _ :: _, h => cases h; rfl
  case rsto => match bs, h with | _ :: _ :: _, h => cases h; rfl
  case rint => match bs, h with | _ :: _ :: _ :: _, h => cases h; rfl
  case med3 => match bs, h with | _ :: _ :: _ :: _ :: _ :: _ :: _, h => cases h; rfl

/-- The operands of an opcode never decode to a reserved opcode. -/
theorem decodeOperands_ne_reserved (o : Opcode) (bs : List Byte) (op : Byte) (rest : List Byte) :
    decodeOperands o bs ≠ .reserved op rest := by
  cases o
  case ptxt =>
    rw [decodeOperands]
    cases readText bs <;> exact fun h => by cases h
  case scan => exact fun h => by cases h
  case ravg => exact fun h => by cases h
  case sdp => match bs with | [] | _ :: _ => exact fun h => by cases h
  case rsto => match bs with | [] | [_] | _ :: _ :: _ => exact fun h => by cases h
  case rint => match bs with | [] | [_] | [_, _] | _ :: _ :: _ :: _ => exact fun h => by cases h
  case med3 =>
    match bs with
    | [] | [_] | [_, _] | [_, _, _] | [_, _, _, _] | [_, _, _, _, _] | _ :: _ :: _ :: _ :: _ :: _ :: _ =>
      exact fun h => by cases h

/-- The decoder reads a complete command from the front alone. -/
theorem decode_append {bs rest : List Byte} {i : Instr} (more : List Byte) (h : decode bs = .command i rest) :
    decode (bs ++ more) = .command i (rest ++ more) := by
  cases bs with
  | nil => cases h
  | cons op bs =>
    rw [decode_cons] at h
    rw [List.cons_append, decode_cons]
    split at h
    · exact decodeOperands_append more h
    · cases h

end Sys2Proof
end

