-- ==== Sys2Proof/Laws/State.lean ====
section
/-! SUPPORT. One lemma per field per named update of State. -/

namespace Sys2Proof.Machine

@[simp] theorem State.showText_db (s : State) (text : List Byte) : (s.showText text).db = textBuffer text := rfl
@[simp] theorem State.showText_scan (s : State) (text : List Byte) : (s.showText text).scan = 0 := rfl
@[simp] theorem State.showText_swin (s : State) (text : List Byte) : (s.showText text).swin = s.swin := rfl
@[simp] theorem State.showText_wcur (s : State) (text : List Byte) : (s.showText text).wcur = s.wcur := rfl
@[simp] theorem State.showText_res (s : State) (text : List Byte) : (s.showText text).res = s.res := rfl
@[simp] theorem State.showText_out (s : State) (text : List Byte) : (s.showText text).out = s.out := rfl
@[simp] theorem State.showText_port (s : State) (text : List Byte) : (s.showText text).port = s.port := rfl
@[simp] theorem State.showText_cfg (s : State) (text : List Byte) : (s.showText text).cfg = s.cfg := rfl
@[simp] theorem State.showText_hostIn (s : State) (text : List Byte) : (s.showText text).hostIn = s.hostIn := rfl
@[simp] theorem State.showText_trace (s : State) (text : List Byte) : (s.showText text).trace = s.trace := rfl

@[simp] theorem State.afterTick_db (s : State) (ph : TickPhases) : (s.afterTick ph).db = s.db := rfl
@[simp] theorem State.afterTick_scan (s : State) (ph : TickPhases) : (s.afterTick ph).scan = advance s.scan := rfl
@[simp] theorem State.afterTick_swin (s : State) (ph : TickPhases) : (s.afterTick ph).swin = s.swin := rfl
@[simp] theorem State.afterTick_wcur (s : State) (ph : TickPhases) : (s.afterTick ph).wcur = s.wcur := rfl
@[simp] theorem State.afterTick_res (s : State) (ph : TickPhases) : (s.afterTick ph).res = s.res := rfl
@[simp] theorem State.afterTick_out (s : State) (ph : TickPhases) : (s.afterTick ph).out = ph.p5 := rfl
@[simp] theorem State.afterTick_port (s : State) (ph : TickPhases) : (s.afterTick ph).port = s.port := rfl
@[simp] theorem State.afterTick_cfg (s : State) (ph : TickPhases) : (s.afterTick ph).cfg = s.cfg := rfl
@[simp] theorem State.afterTick_hostIn (s : State) (ph : TickPhases) : (s.afterTick ph).hostIn = s.hostIn := rfl
@[simp] theorem State.afterTick_trace (s : State) (ph : TickPhases) : (s.afterTick ph).trace = s.trace ++ [ph] := rfl

@[simp] theorem State.accepted_db (s : State) (rest : List Byte) : (s.accepted rest).db = s.db := rfl
@[simp] theorem State.accepted_scan (s : State) (rest : List Byte) : (s.accepted rest).scan = s.scan := rfl
@[simp] theorem State.accepted_swin (s : State) (rest : List Byte) : (s.accepted rest).swin = s.swin := rfl
@[simp] theorem State.accepted_wcur (s : State) (rest : List Byte) : (s.accepted rest).wcur = s.wcur := rfl
@[simp] theorem State.accepted_res (s : State) (rest : List Byte) : (s.accepted rest).res = s.res := rfl
@[simp] theorem State.accepted_out (s : State) (rest : List Byte) : (s.accepted rest).out = s.out := rfl
@[simp] theorem State.accepted_port (s : State) (rest : List Byte) : (s.accepted rest).port = [] := rfl
@[simp] theorem State.accepted_cfg (s : State) (rest : List Byte) : (s.accepted rest).cfg = s.cfg := rfl
@[simp] theorem State.accepted_hostIn (s : State) (rest : List Byte) : (s.accepted rest).hostIn = presents rest ++ afterOffered s.hostIn := rfl
@[simp] theorem State.accepted_trace (s : State) (rest : List Byte) : (s.accepted rest).trace = s.trace := rfl

@[simp] theorem State.awaitRest_db (s : State) : (s.awaitRest).db = s.db := rfl
@[simp] theorem State.awaitRest_scan (s : State) : (s.awaitRest).scan = s.scan := rfl
@[simp] theorem State.awaitRest_swin (s : State) : (s.awaitRest).swin = s.swin := rfl
@[simp] theorem State.awaitRest_wcur (s : State) : (s.awaitRest).wcur = s.wcur := rfl
@[simp] theorem State.awaitRest_res (s : State) : (s.awaitRest).res = s.res := rfl
@[simp] theorem State.awaitRest_out (s : State) : (s.awaitRest).out = s.out := rfl
@[simp] theorem State.awaitRest_port (s : State) : (s.awaitRest).port = s.port ++ offered s.hostIn := rfl
@[simp] theorem State.awaitRest_cfg (s : State) : (s.awaitRest).cfg = s.cfg := rfl
@[simp] theorem State.awaitRest_hostIn (s : State) : (s.awaitRest).hostIn = afterOffered s.hostIn := rfl
@[simp] theorem State.awaitRest_trace (s : State) : (s.awaitRest).trace = s.trace := rfl

@[simp] theorem State.takeReset_db (s : State) (es : List HostEvent) : (s.takeReset es).db = ⟨blankSlot, blankSlot, blankSlot⟩ := rfl
@[simp] theorem State.takeReset_scan (s : State) (es : List HostEvent) : (s.takeReset es).scan = 0 := rfl
@[simp] theorem State.takeReset_swin (s : State) (es : List HostEvent) : (s.takeReset es).swin = ⟨0, 0, 0⟩ := rfl
@[simp] theorem State.takeReset_wcur (s : State) (es : List HostEvent) : (s.takeReset es).wcur = 0 := rfl
@[simp] theorem State.takeReset_res (s : State) (es : List HostEvent) : (s.takeReset es).res = 0 := rfl
@[simp] theorem State.takeReset_out (s : State) (es : List HostEvent) : (s.takeReset es).out = ⟨s.cfg.blankA, s.cfg.blankB, s.cfg.blankC, 0⟩ := rfl
@[simp] theorem State.takeReset_port (s : State) (es : List HostEvent) : (s.takeReset es).port = [] := rfl
@[simp] theorem State.takeReset_cfg (s : State) (es : List HostEvent) : (s.takeReset es).cfg = s.cfg := rfl
@[simp] theorem State.takeReset_hostIn (s : State) (es : List HostEvent) : (s.takeReset es).hostIn = es := rfl
@[simp] theorem State.takeReset_trace (s : State) (es : List HostEvent) : (s.takeReset es).trace = s.trace := rfl

@[simp] theorem State.withFetchWord_db (s : State) (nbits w : Nat) : (s.withFetchWord nbits w).db = s.db := rfl
@[simp] theorem State.withFetchWord_scan (s : State) (nbits w : Nat) : (s.withFetchWord nbits w).scan = s.scan := rfl
@[simp] theorem State.withFetchWord_swin (s : State) (nbits w : Nat) : (s.withFetchWord nbits w).swin = s.swin := rfl
@[simp] theorem State.withFetchWord_wcur (s : State) (nbits w : Nat) : (s.withFetchWord nbits w).wcur = s.wcur := rfl
@[simp] theorem State.withFetchWord_res (s : State) (nbits w : Nat) : (s.withFetchWord nbits w).res = s.res := rfl
@[simp] theorem State.withFetchWord_out (s : State) (nbits w : Nat) : (s.withFetchWord nbits w).out = s.out := rfl
@[simp] theorem State.withFetchWord_port (s : State) (nbits w : Nat) : (s.withFetchWord nbits w).port = [] := rfl
@[simp] theorem State.withFetchWord_cfg (s : State) (nbits w : Nat) : (s.withFetchWord nbits w).cfg = s.cfg := rfl
@[simp] theorem State.withFetchWord_hostIn (s : State) (nbits w : Nat) : (s.withFetchWord nbits w).hostIn = presents (frontCommand (tableBytes nbits w)) ++ s.hostIn := rfl
@[simp] theorem State.withFetchWord_trace (s : State) (nbits w : Nat) : (s.withFetchWord nbits w).trace = s.trace := rfl

end Sys2Proof.Machine
end

