-- ==== Sys2Proof/Laws/Ops.lean ====
section
/-! SUPPORT. What each shared operation does, said once. -/

namespace Sys2Proof.Machine

/-! ### Register files -/

/-- A read after a change: the changed slot is changed, every other slot is as before. -/
theorem Triple.get?_modify {α : Type} (t : Triple α) (i k : Nat) (f : α → α) :
    (t.modify i f).get? k = if k = i then (t.get? k).map f else t.get? k := by
  match i, k with
  | 0, 0 | 0, 1 | 0, 2 | 1, 0 | 1, 1 | 1, 2 | 2, 0 | 2, 1 | 2, 2 => rfl
  | 0, k + 3 | 1, k + 3 | 2, k + 3 => simp [Triple.get?]
  | i + 3, k => by_cases h : k = i + 3 <;> simp [Triple.get?, Triple.modify, h]

/-- An index above 2 names no slot. -/
theorem Triple.modify_of_gt {α : Type} (t : Triple α) {i : Nat} (f : α → α) (h : 2 < i) : t.modify i f = t := by
  match i, h with
  | _ + 3, _ => rfl

theorem Triple.get?_eq_none_iff {α : Type} (t : Triple α) (k : Nat) : t.get? k = none ↔ 2 < k := by
  match k with
  | 0 | 1 | 2 => simp [Triple.get?]
  | k + 3 => simp [Triple.get?]

/-- What holds of all three slots holds of the slot read. -/
theorem LegalBuffer.get? {db : Triple Slot} (h : LegalBuffer db) {k : Nat} {slot : Slot} (hk : db.get? k = some slot) :
    slot.Legal := by
  obtain ⟨h0, h1, h2⟩ := h
  match k with
  | 0 | 1 | 2 => simp only [Triple.get?, Option.some.injEq] at hk; subst hk; assumption
  | k + 3 => simp [Triple.get?] at hk

/-- A change that keeps a slot legal keeps the buffer legal. -/
theorem LegalBuffer.modify {db : Triple Slot} (h : LegalBuffer db) (i : Nat) {f : Slot → Slot}
    (hf : ∀ slot : Slot, slot.Legal → (f slot).Legal) : LegalBuffer (db.modify i f) := by
  obtain ⟨h0, h1, h2⟩ := h
  match i with
  | 0 => exact ⟨hf _ h0, h1, h2⟩
  | 1 => exact ⟨h0, hf _ h1, h2⟩
  | 2 => exact ⟨h0, h1, hf _ h2⟩
  | i + 3 => exact ⟨h0, h1, h2⟩

theorem LegalBuffer.setPoint {db : Triple Slot} (h : LegalBuffer db) (i : Nat) : LegalBuffer (setPoint db i) :=
  h.modify i fun _ hs => hs

theorem LegalBuffer.setGlyph {db : Triple Slot} (h : LegalBuffer db) (i : Nat) {g : GlyphNum}
    (hg : g.toNat < glyphCount ∨ g = blankGlyph) : LegalBuffer (setGlyph db i g) :=
  h.modify i fun _ _ => hg

/-- The counters never leave 0..2 (10_state.md R31, R32). -/
theorem advance_le (x : Counter) : (advance x).toNat ≤ 2 := by
  revert x
  decide

/-- The advance goes 0, 1, 2, 0 (42_scanner.md R147). -/
theorem advance_eq (x : Counter) (h : x.toNat ≤ 2) : advance x = if x = 0 then 1 else if x = 1 then 2 else 0 := by
  revert x
  decide

/-! ### Glyph ROM and outputs -/

/-- A lookup answers exactly on the glyphs of the table (40_glyph_table.md R100 to R102). -/
theorem lookup_isSome_iff (cfg : Config) (g : GlyphNum) : (lookup cfg g).isSome ↔ g.toNat < glyphCount := by
  unfold lookup
  split <;> simp_all

/-- Step 3 goes on exactly for a legal glyph. -/
theorem showGlyph_isSome_iff (cfg : Config) (slot : Slot) (o : Outputs) :
    (o.showGlyph cfg slot.glyph).isSome ↔ slot.Legal := by
  unfold Outputs.showGlyph Slot.Legal
  rw [← lookup_isSome_iff cfg slot.glyph]
  by_cases hb : slot.glyph = blankGlyph
  · rw [if_pos hb]
    exact iff_of_true rfl (.inr hb)
  · rw [if_neg hb]
    cases lookup cfg slot.glyph <;> simp [hb]

@[simp] theorem Outputs.lines_modify (o : Outputs) (x y : SegGroup) (f : Lines → Lines) :
    (o.modify x f).lines y = if y = x then f (o.lines y) else o.lines y := by
  cases x <;> cases y <;> rfl

@[simp] theorem Outputs.anode_modify (o : Outputs) (x : SegGroup) (f : Lines → Lines) :
    (o.modify x f).anode = o.anode := by
  cases x <;> rfl

@[simp] theorem Outputs.lines_deactivate (o : Outputs) (x : SegGroup) : o.deactivate.lines x = o.lines x := by
  cases x <;> rfl

@[simp] theorem Outputs.lines_select (o : Outputs) (d : Counter) (x : SegGroup) : (o.select d).lines x = o.lines x := by
  cases x <;> rfl

@[simp] theorem Outputs.lines_allOff (o : Outputs) (cfg : Config) (x : SegGroup) :
    (o.allOff cfg).lines x = o.lines x ||| cfg.blankOf x := by
  cases x <;> rfl

/-- The pattern of one group. -/
def Pattern.lines (p : Pattern) : SegGroup → Lines
  | .a => p.a
  | .b => p.b
  | .c => p.c

@[simp] theorem Outputs.lines_light (o : Outputs) (p : Pattern) (x : SegGroup) :
    (o.light p).lines x = o.lines x &&& ~~~(Pattern.lines p x) := by
  cases x <;> rfl

@[simp] theorem Outputs.lines_showPoint (o : Outputs) (cfg : Config) (dp : Bool) (x : SegGroup) :
    (o.showPoint cfg dp).lines x =
      if dp then o.lines x &&& ~~~(cfg.pointOf x) else o.lines x ||| cfg.pointOf x := by
  unfold Outputs.showPoint Config.pointOf
  rw [Outputs.lines_modify]
  by_cases h : x = cfg.dpGroup
  · rw [if_pos h, if_pos h]
  · rw [if_neg h, if_neg h]
    have h1 : o.lines x &&& ~~~(0 : Lines) = o.lines x := BitVec.and_allOnes
    have h2 : o.lines x ||| (0 : Lines) = o.lines x := by simp
    rw [h1, h2, ite_self]

/-- Two output states with equal lines and digit select are equal. -/
theorem Outputs.ext_lines {o o' : Outputs} (h : ∀ x, o.lines x = o'.lines x) (ha : o.anode = o'.anode) : o = o' := by
  cases o
  cases o'
  simp only [Outputs.mk.injEq]
  exact ⟨h .a, h .b, h .c, ha⟩

/-! ### The command port -/

@[simp] theorem offered_presents_append (bs : List Byte) (es : List HostEvent) :
    offered (presents bs ++ es) = bs ++ offered es := by
  induction bs with
  | nil => rfl
  | cons b bs ih => simpa [presents, offered] using ih

@[simp] theorem afterOffered_presents_append (bs : List Byte) (es : List HostEvent) :
    afterOffered (presents bs ++ es) = afterOffered es := by
  induction bs with
  | nil => rfl
  | cons b bs ih => simpa [presents, afterOffered] using ih

/-- The host's inputs are the bytes it presents first and what it does after them. -/
@[simp] theorem presents_offered_append (es : List HostEvent) : presents (offered es) ++ afterOffered es = es := by
  induction es with
  | nil => rfl
  | cons e es ih =>
    cases e with
    | byte b => simpa [presents, offered, afterOffered] using ih
    | rst => rfl

@[simp] theorem presents_append (p q : List Byte) : presents (p ++ q) = presents p ++ presents q := by
  simp [presents]

end Sys2Proof.Machine
end

