-- ==== Sys2Proof/Laws/Filter.lean ====
section
/-! SUPPORT. What the sample filter computes, said once. -/

namespace Sys2Proof.Machine

/-- One if a sample counts, zero if it is skipped (43_sample_filter.md R166). -/
def nonzero (x : Sample) : Nat := if x = 0 then 0 else 1

/-- The number of nonzero samples of a window (43_sample_filter.md R166). -/
def nonzeroCount (w : Triple Sample) : Nat := nonzero w.s0 + nonzero w.s1 + nonzero w.s2

/-- A sample is zero and is skipped, or is nonzero, also as a number, and counts. -/
theorem nonzero_cases (x : Sample) :
    (x = 0 ∧ nonzero x = 0 ∧ x.toNat = 0) ∨ (x ≠ 0 ∧ nonzero x = 1 ∧ 1 ≤ x.toNat ∧ x.toNat ≤ 65535) := by
  have hz : (0 : Sample).toNat = 0 := rfl
  have hlt := x.isLt
  by_cases h : x = 0
  · exact .inl ⟨h, if_pos h, by rw [h]; rfl⟩
  · have hne : x.toNat ≠ 0 := fun hc => h (BitVec.eq_of_toNat_eq (by omega))
    exact .inr ⟨h, if_neg h, by omega, by omega⟩

/-- One slot of the averaging loop over the exact numbers, while the sum fits 18 bits. -/
theorem addSample_spec (acc : Accumulator × Nat) (x : Sample) (h : acc.1.toNat + x.toNat < 2 ^ 18) :
    (addSample acc x).1.toNat = acc.1.toNat + x.toNat ∧
    (addSample acc x).2 = acc.2 + nonzero x := by
  unfold addSample nonzero
  by_cases hx : x = 0
  · simp [hx]
  · have hz : (x.zeroExtend 18).toNat = x.toNat := by
      rw [BitVec.toNat_setWidth]
      exact Nat.mod_eq_of_lt (by omega)
    simp only [if_neg hx]
    exact ⟨by rw [BitVec.toNat_add, hz]; exact Nat.mod_eq_of_lt h, trivial⟩

/-- The sum of the window is exact in 18 bits (43_sample_filter.md R166: "at most 3 × 65535 = 196605 < 2^18"). -/
theorem addSamples_spec (w : Triple Sample) :
    (addSample (addSample (addSample (0, 0) w.s0) w.s1) w.s2).1.toNat = w.s0.toNat + w.s1.toNat + w.s2.toNat ∧
    (addSample (addSample (addSample (0, 0) w.s0) w.s1) w.s2).2 = nonzeroCount w := by
  have h0 := w.s0.isLt
  have h1 := w.s1.isLt
  have h2 := w.s2.isLt
  have hz : ((0, 0) : Accumulator × Nat).1.toNat = 0 := rfl
  obtain ⟨a0, c0⟩ := addSample_spec (0, 0) w.s0 (by omega)
  obtain ⟨a1, c1⟩ := addSample_spec (addSample (0, 0) w.s0) w.s1 (by omega)
  obtain ⟨a2, c2⟩ := addSample_spec (addSample (addSample (0, 0) w.s0) w.s1) w.s2 (by omega)
  refine ⟨?_, ?_⟩
  · rw [a2, a1, a0]
    simp
  · rw [c2, c1, c0, nonzeroCount]
    simp

/-- The zero-skipping average over the exact numbers (43_sample_filter.md R166): the quotient fits RES. -/
theorem average_spec (w : Triple Sample) :
    average w = 0 ∧ nonzeroCount w = 0 ∨
    1 ≤ nonzeroCount w ∧ (average w).toNat = (w.s0.toNat + w.s1.toNat + w.s2.toNat) / nonzeroCount w := by
  obtain ⟨hs, hc⟩ := addSamples_spec w
  unfold average
  simp only
  rw [hc]
  by_cases h : nonzeroCount w = 0
  · exact .inl ⟨by rw [if_pos h], h⟩
  · right
    rw [if_neg h, hs]
    refine ⟨by omega, ?_⟩
    rw [BitVec.toNat_ofNat]
    apply Nat.mod_eq_of_lt
    rw [Nat.div_lt_iff_lt_mul (by omega)]
    unfold nonzeroCount at h ⊢
    rcases nonzero_cases w.s0 with h0 | h0 <;> rcases nonzero_cases w.s1 with h1 | h1 <;>
      rcases nonzero_cases w.s2 with h2 | h2 <;> omega

/-- The middle of three, over the numbers (43_sample_filter.md R161). -/
theorem median_toNat (a b c : Sample) :
    (median a b c).toNat = max (min a.toNat b.toNat) (min (max a.toNat b.toNat) c.toNat) := by
  unfold median
  simp only [BitVec.le_def]
  split <;> split <;> (try split) <;> omega

/-- The window after a store: the cursor's slot holds the value, the others are as before (43_sample_filter.md R164). -/
theorem set_get? (w : Triple Sample) (i k : Nat) (v : Sample) (h : i ≤ 2) :
    (w.set i v).get? k = if k = i then some v else w.get? k := by
  rw [Triple.set, Triple.get?_modify]
  by_cases hk : k = i
  · rw [if_pos hk, if_pos hk, hk]
    match i, h with
    | 0, _ | 1, _ | 2, _ => rfl
  · rw [if_neg hk, if_neg hk]

end Sys2Proof.Machine
end

