-- ==== Sys2Proof/Laws/Formatter.lean ====
section
/-! SUPPORT. What the formatter's loops do, said once. -/

namespace Sys2Proof.Machine

/-! ### `parse_text` -/

/-- With three slots produced the scan is over (41_formatter.md R112). -/
@[simp] theorem scanText_of_full (text : List Byte) {tmp : List Slot} (h : tmp.length = 3) : scanText text tmp = tmp := by
  cases text <;> simp [scanText, h]

/-- Scanning a text is scanning its first part, then the rest, if no terminator ends the first part. -/
theorem scanText_append (pre post : List Byte) (tmp : List Slot) (h : pre.all (· != 0) = true) :
    scanText (pre ++ post) tmp = scanText post (scanText pre tmp) := by
  induction pre generalizing tmp with
  | nil => rfl
  | cons ch pre ih =>
    rw [List.all_cons, Bool.and_eq_true, bne_iff_ne] at h
    obtain ⟨hch, hpre⟩ := h
    rw [List.cons_append, scanText, scanText]
    by_cases hfull : tmp.length = 3
    · simp [hfull]
    · have hterm : ¬ ch = terminatorCode := hch
      simp only [if_neg hfull, if_neg hterm]
      split
      · exact ih _ hpre
      · cases glyphOf ch with
        | some g => exact ih _ hpre
        | none => exact ih _ hpre

/-- One more slot-producing character. -/
theorem scanText_glyph {ch : Byte} {g : GlyphNum} {tmp : List Slot} (hfull : tmp.length ≠ 3) (hterm : ch ≠ terminatorCode)
    (hdot : ch ≠ dotCode) (hg : glyphOf ch = some g) (rest : List Byte) :
    scanText (ch :: rest) tmp = scanText rest (⟨g, false⟩ :: tmp) := by
  simp [scanText, hfull, hterm, hdot, hg]

/-- One more dot (41_formatter.md R113). -/
theorem scanText_dot {tmp : List Slot} (hfull : tmp.length ≠ 3) (rest : List Byte) :
    scanText (dotCode :: rest) tmp = scanText rest (markDot tmp) := by
  rw [scanText, if_neg hfull, if_neg (by decide), if_pos rfl]

/-- One more skipped character (41_formatter.md R114). -/
theorem scanText_skipped {ch : Byte} (h : Skipped ch) (rest : List Byte) (tmp : List Slot) :
    scanText (ch :: rest) tmp = scanText rest tmp := by
  obtain ⟨hterm, hdot, hg⟩ := h
  by_cases hfull : tmp.length = 3
  · simp [hfull]
  · simp [scanText, hfull, hterm, hdot, hg]

theorem markDot_length (tmp : List Slot) : (markDot tmp).length = max 1 tmp.length := by
  cases tmp <;> simp [markDot]

/-- The glyphs of accepted characters are legal (30_encoding.md R79; 10_state.md R22). -/
theorem glyphOf_legal {ch : Byte} {g : GlyphNum} (h : glyphOf ch = some g) : g.toNat < glyphCount ∨ g = blankGlyph := by
  revert ch g
  decide

/-- What the scan keeps: at most three slots, all legal. -/
theorem scanText_keeps (text : List Byte) (tmp : List Slot) (hlen : tmp.length ≤ 3) (hleg : ∀ slot ∈ tmp, slot.Legal) :
    (scanText text tmp).length ≤ 3 ∧ ∀ slot ∈ scanText text tmp, slot.Legal := by
  induction text generalizing tmp with
  | nil => exact ⟨hlen, hleg⟩
  | cons ch text ih =>
    rw [scanText]
    split
    · exact ⟨hlen, hleg⟩
    split
    · exact ⟨hlen, hleg⟩
    split
    · apply ih
      · rw [markDot_length]; omega
      · cases tmp with
        | nil => simp [markDot, Slot.Legal]
        | cons slot older =>
          intro x hx
          rcases List.mem_cons.mp hx with rfl | hx
          · exact hleg slot (by simp)
          · exact hleg x (by simp [hx])
    · cases hg : glyphOf ch with
      | none => exact ih _ hlen hleg
      | some g =>
        apply ih
        · simp only [List.length_cons]; omega
        · intro x hx
          rcases List.mem_cons.mp hx with rfl | hx
          · exact glyphOf_legal hg
          · exact hleg x hx

theorem blankSlot_legal : blankSlot.Legal := .inr rfl

theorem getD_legal {tmp : List Slot} (h : ∀ slot ∈ tmp, slot.Legal) (k : Nat) : (tmp.getD k blankSlot).Legal := by
  rw [List.getD_eq_getElem?_getD]
  cases hk : tmp[k]? with
  | none => exact blankSlot_legal
  | some slot => exact h slot (List.mem_of_getElem? hk)

/-- The buffer of a text is legal (10_state.md R22). -/
theorem textBuffer_legal (text : List Byte) : LegalBuffer (textBuffer text) := by
  have h := (scanText_keeps text [] (by simp) (by simp)).2
  exact ⟨getD_legal h 2, getD_legal h 1, getD_legal h 0⟩

/-! ### `render_int` -/

theorem digitGlyph_legal (n : Nat) : (digitGlyph (n % 10)).toNat < glyphCount ∨ digitGlyph (n % 10) = blankGlyph := by
  left
  simp only [digitGlyph, BitVec.toNat_ofNat, glyphCount]
  omega

theorem initialBuffer_legal (m : Bool) : LegalBuffer (initialBuffer m) := by
  cases m <;> decide

theorem placeDigits_legal (room mag : Nat) (db : Triple Slot) (h : LegalBuffer db) :
    LegalBuffer (placeDigits room mag db).1 := by
  induction room generalizing mag db with
  | zero => exact h
  | succ room ih =>
    have h' := h.setGlyph room (digitGlyph_legal mag)
    rw [placeDigits]
    split
    · exact h'
    · exact ih _ _ h'

theorem numberBuffer_legal (value : Int) (dpPos : Nat) (m : Bool) : LegalBuffer (numberBuffer value dpPos m) := by
  have hd := placeDigits_legal 3 value.natAbs _ (initialBuffer_legal m)
  have hs : LegalBuffer (placeSign (decide (value < 0)) (placeDigits 3 value.natAbs (initialBuffer m))) := by
    unfold placeSign
    split
    · exact hd.setGlyph _ (by decide)
    · exact hd
  unfold numberBuffer
  split
  · exact hs.setPoint _
  · exact hs

/-- Everything `render_int` can do: the error text, the zero case, which keeps SCAN, or a number. -/
theorem showInt_cases (s : State) (value : Int) (m : Bool) :
    (s.showInt value m = s.showText errorText) ∨
    (s.showInt value m = { s with db := setGlyph (initialBuffer m) 2 (digitGlyph 0) } ∧ (meterScale value m).1 = 0) ∨
    (s.showInt value m = { s with db := numberBuffer (meterScale value m).1 (meterScale value m).2 m, scan := 0 }) := by
  unfold State.showInt
  simp only
  split
  · exact .inl rfl
  split
  · exact .inr (.inl ⟨rfl, by assumption⟩)
  · exact .inr (.inr rfl)

/-- What `render_int` changes: DB, to a legal buffer, and SCAN, to 0 or not at all. -/
theorem showInt_spec (s : State) (value : Int) (m : Bool) :
    ∃ db scan, s.showInt value m = { s with db := db, scan := scan } ∧ LegalBuffer db ∧ (scan = 0 ∨ scan = s.scan) := by
  rcases showInt_cases s value m with h | ⟨h, -⟩ | h
  · exact ⟨_, _, h, textBuffer_legal _, .inl rfl⟩
  · exact ⟨_, _, h, (initialBuffer_legal m).setGlyph 2 (by decide), .inr rfl⟩
  · exact ⟨_, _, h, numberBuffer_legal _ _ _, .inl rfl⟩

end Sys2Proof.Machine
end

