-- ==== Sys2Proof/Laws/PerInstr.lean ====
section
/-! SUPPORT. The family EncodeShape: for every instruction, its encoding begins with its own opcode byte and has the
length the opcode gives it (30_encoding.md R70, R83). -/

namespace Sys2Proof.Laws

/-- The length of a command in bytes (30_encoding.md R73 to R77, R83). -/
def commandLength : Instr → Nat
  | .parseText text => text.length + 2
  | .renderInt _ _ => 4
  | .setDecimalPoint _ => 2
  | .scanTick => 1
  | .medianOfThree _ _ _ => 7
  | .rollingStore _ => 3
  | .rollingAverage => 1

/-- The shape of one instruction's encoding. -/
def EncodeShape.Statement (i : Instr) : Prop :=
  opcodeOf ((encode i).headD 0) = some i.opcode ∧ (encode i).length = commandLength i

theorem EncodeShape.parseText (text : List Byte) : EncodeShape.Statement (.parseText text) :=
  ⟨rfl, by simp [encode, Instr.operandBytes, commandLength]⟩

theorem EncodeShape.renderInt (value : Value) (meterMode : Bool) : EncodeShape.Statement (.renderInt value meterMode) :=
  ⟨rfl, rfl⟩

theorem EncodeShape.setDecimalPoint (position : Byte) : EncodeShape.Statement (.setDecimalPoint position) := ⟨rfl, rfl⟩

theorem EncodeShape.scanTick : EncodeShape.Statement .scanTick := ⟨rfl, rfl⟩

theorem EncodeShape.medianOfThree (a b c : Sample) : EncodeShape.Statement (.medianOfThree a b c) := ⟨rfl, rfl⟩

theorem EncodeShape.rollingStore (value : Sample) : EncodeShape.Statement (.rollingStore value) := ⟨rfl, rfl⟩

theorem EncodeShape.rollingAverage : EncodeShape.Statement .rollingAverage := ⟨rfl, rfl⟩

end Sys2Proof.Laws
end

