-- ==== Sys2Proof/Laws/Scanner.lean ====
section
/-! SUPPORT. What a tick does, said once. -/

namespace Sys2Proof.Machine

/-- The phases of a tick, step by step (42_scanner.md R142 to R146): everything `tickPhases` can answer. -/
theorem tickPhases_eq_some {cfg : Config} {slot : Slot} {digit : Counter} {o : Outputs} {ph : TickPhases}
    (h : tickPhases cfg slot digit o = some ph) :
    ph.p1 = o.deactivate ∧ ph.p2 = ph.p1.allOff cfg ∧ ph.p2.showGlyph cfg slot.glyph = some ph.p3 ∧
    ph.p4 = ph.p3.showPoint cfg slot.dp ∧ ph.p5 = ph.p4.select digit := by
  unfold tickPhases at h
  simp only at h
  split at h
  · cases h
  · rename_i p3 heq
    cases h
    exact ⟨rfl, rfl, heq, rfl, rfl⟩

/-- A tick goes through exactly on a legal slot. -/
theorem tickPhases_isSome_iff (cfg : Config) (slot : Slot) (digit : Counter) (o : Outputs) :
    (tickPhases cfg slot digit o).isSome ↔ slot.Legal := by
  rw [← showGlyph_isSome_iff cfg slot (o.deactivate.allOff cfg)]
  unfold tickPhases
  simp only
  split <;> simp_all

/-- Everything step 3 can do (42_scanner.md R144): nothing for a blank slot, else clear the lines of the glyph's patterns. -/
theorem showGlyph_eq_some {cfg : Config} {g : GlyphNum} {o o' : Outputs} (h : o.showGlyph cfg g = some o') :
    (g = blankGlyph ∧ o' = o) ∨
    (g ≠ blankGlyph ∧ ∃ hg : g.toNat < 18, o' = o.light ⟨cfg.romA[g.toNat], cfg.romB[g.toNat], cfg.romC[g.toNat]⟩) := by
  unfold Outputs.showGlyph at h
  split at h
  · rename_i hb
    cases h
    exact .inl ⟨hb, rfl⟩
  · rename_i hb
    unfold lookup at h
    split at h
    · rename_i p heq
      split at heq
      · rename_i hg
        cases heq
        cases h
        exact .inr ⟨hb, hg, rfl⟩
      · cases heq
    · cases h

theorem showGlyph_anode {cfg : Config} {g : GlyphNum} {o o' : Outputs} (h : o.showGlyph cfg g = some o') :
    o'.anode = o.anode := by
  rcases showGlyph_eq_some h with ⟨-, rfl⟩ | ⟨-, -, rfl⟩ <;> rfl

/-- Step 3 clears lines only. -/
theorem showGlyph_lines {cfg : Config} {g : GlyphNum} {o o' : Outputs} (h : o.showGlyph cfg g = some o') (x : SegGroup) :
    ∃ p : Lines, o'.lines x = o.lines x &&& ~~~p := by
  rcases showGlyph_eq_some h with ⟨-, rfl⟩ | ⟨-, -, rfl⟩
  · exact ⟨0, BitVec.and_allOnes.symm⟩
  · exact ⟨_, Outputs.lines_light _ _ _⟩

/-- The digit select of each phase: none in P1 to P4, the digit in P5 (42_scanner.md R149). -/
theorem tickPhases_anode {cfg : Config} {slot : Slot} {digit : Counter} {o : Outputs} {ph : TickPhases}
    (h : tickPhases cfg slot digit o = some ph) :
    ph.p1.anode = 0 ∧ ph.p2.anode = 0 ∧ ph.p3.anode = 0 ∧ ph.p4.anode = 0 ∧ ph.p5.anode = 1#3 <<< digit.toNat := by
  obtain ⟨h1, h2, h3, h4, h5⟩ := tickPhases_eq_some h
  have e1 : ph.p1.anode = 0 := by rw [h1]; rfl
  have e2 : ph.p2.anode = 0 := by rw [h2]; exact e1
  have e3 : ph.p3.anode = 0 := by rw [showGlyph_anode h3]; exact e2
  have e4 : ph.p4.anode = 0 := by rw [h4]; simpa [Outputs.showPoint] using e3
  exact ⟨e1, e2, e3, e4, by rw [h5]; rfl⟩

/-- A one-hot digit select for each legal scanner state (10_state.md R36). -/
theorem select_eq (d : Counter) (h : d.toNat ≤ 2) :
    (1#3 <<< d.toNat : Anode) = if d = 0 then 1 else if d = 1 then 2 else 4 := by
  revert d
  decide

theorem tickPhases_noGhost {cfg : Config} {slot : Slot} {digit : Counter} {o : Outputs} {ph : TickPhases}
    (h : tickPhases cfg slot digit o = some ph) (hd : digit.toNat ≤ 2) : ph.NoGhost := by
  obtain ⟨a1, a2, a3, a4, a5⟩ := tickPhases_anode h
  obtain ⟨-, -, -, -, h5⟩ := tickPhases_eq_some h
  refine ⟨a1, a2, a3, a4, ?_, by rw [h5]; rfl, by rw [h5]; rfl, by rw [h5]; rfl⟩
  rw [a5, select_eq digit hd]
  split
  · exact .inl rfl
  split
  · exact .inr (.inl rfl)
  · exact .inr (.inr rfl)

/-- The lines of a group through a tick: step 2 sets its segment lines, step 3 clears the lines of some pattern, step 4
clears or sets its decimal-point line (42_scanner.md R143 to R145). -/
theorem tickPhases_lines {cfg : Config} {slot : Slot} {digit : Counter} {o : Outputs} {ph : TickPhases}
    (h : tickPhases cfg slot digit o = some ph) (x : SegGroup) :
    ∃ p : Lines, ph.p3.lines x = (o.lines x ||| cfg.blankOf x) &&& ~~~p ∧
      ph.p5.lines x = if slot.dp then ph.p3.lines x &&& ~~~(cfg.pointOf x) else ph.p3.lines x ||| cfg.pointOf x := by
  obtain ⟨h1, h2, h3, h4, h5⟩ := tickPhases_eq_some h
  obtain ⟨p, hp⟩ := showGlyph_lines h3 x
  refine ⟨p, ?_, ?_⟩
  · rw [hp, h2, Outputs.lines_allOff, h1, Outputs.lines_deactivate]
  · rw [h5, Outputs.lines_select, h4, Outputs.lines_showPoint]

/-- Everything `scan_tick` can do. -/
theorem execScanTick_cases (s : State) :
    (s.db.get? s.scan.toNat = none ∧ execScanTick s = .fault .scanOutOfRange) ∨
    (∃ slot, s.db.get? s.scan.toNat = some slot ∧ ¬ slot.Legal ∧ execScanTick s = .fault .invalidGlyph) ∨
    (∃ slot ph, s.db.get? s.scan.toNat = some slot ∧ slot.Legal ∧ tickPhases s.cfg slot s.scan s.out = some ph ∧
      execScanTick s = .next (s.afterTick ph)) := by
  unfold execScanTick
  cases hs : s.db.get? s.scan.toNat with
  | none => exact .inl ⟨rfl, rfl⟩
  | some slot =>
    have hiff := tickPhases_isSome_iff s.cfg slot s.scan s.out
    cases ht : tickPhases s.cfg slot s.scan s.out with
    | none =>
      rw [ht] at hiff
      exact .inr (.inl ⟨slot, rfl, fun hl => by simpa using hiff.mpr hl, by simp only [ht]⟩)
    | some ph =>
      rw [ht] at hiff
      exact .inr (.inr ⟨slot, ph, rfl, hiff.mp rfl, ht, by simp only [ht]⟩)

end Sys2Proof.Machine
end

