-- ==== Sys2Proof/Laws/Step.lean ====
section
/-! SUPPORT. Everything an operation and a step can do, said once, for the invariants. -/

namespace Sys2Proof.Machine

/-- Everything a step can do: take a reset, run a command, discard a reserved opcode, or wait. -/
theorem step_cases (s : State) :
    (∃ es, s.hostIn = .rst :: es ∧ step s = .next (s.takeReset es)) ∨
    (∃ i rest, decode (s.port ++ offered s.hostIn) = .command i rest ∧ step s = exec i (s.accepted rest)) ∨
    (∃ op rest, decode (s.port ++ offered s.hostIn) = .reserved op rest ∧ step s = .next (s.accepted rest)) ∨
    (decode (s.port ++ offered s.hostIn) = .incomplete ∧ step s = .next s.awaitRest) := by
  unfold step
  cases hh : s.hostIn with
  | nil =>
    cases hd : decode (s.port ++ offered []) with
    | command i rest => exact .inr (.inl ⟨i, rest, rfl, by simp only⟩)
    | reserved op rest => exact .inr (.inr (.inl ⟨op, rest, rfl, by simp only⟩))
    | incomplete => exact .inr (.inr (.inr ⟨rfl, by simp only⟩))
  | cons e es =>
    cases e with
    | rst => exact .inl ⟨es, rfl, rfl⟩
    | byte b =>
      cases hd : decode (s.port ++ offered (.byte b :: es)) with
      | command i rest => exact .inr (.inl ⟨i, rest, rfl, by simp only⟩)
      | reserved op rest => exact .inr (.inr (.inl ⟨op, rest, rfl, by simp only⟩))
      | incomplete => exact .inr (.inr (.inr ⟨rfl, by simp only⟩))

/-- A step on bytes that are presented first is decided by the decoder. -/
theorem step_presents (s : State) (bs : List Byte) (es : List HostEvent) (hne : bs ≠ []) (h : s.hostIn = presents bs ++ es) :
    step s = match decode (s.port ++ (bs ++ offered es)) with
      | .command i rest => exec i (s.accepted rest)
      | .reserved _ rest => .next (s.accepted rest)
      | .incomplete => .next s.awaitRest := by
  cases bs with
  | nil => exact absurd rfl hne
  | cons b bs =>
    have ho : offered s.hostIn = b :: bs ++ offered es := by rw [h, offered_presents_append]
    unfold step
    rw [ho]
    cases hh : s.hostIn with
    | nil => exact absurd (h.symm.trans hh) (by simp [presents])
    | cons e es' =>
      have he : HostEvent.byte b :: (presents bs ++ es) = e :: es' := h.symm.trans hh
      cases he
      rfl

/-- What an operation can change of the architectural state, one case per family. -/
theorem exec_cases {i : Instr} {s t : State} (h : exec i s = .next t) :
    (∃ db scan, t = { s with db := db, scan := scan } ∧ (LegalBuffer s.db → LegalBuffer db) ∧ (scan = 0 ∨ scan = s.scan)) ∨
    (i = .scanTick ∧ ∃ slot ph, s.db.get? s.scan.toNat = some slot ∧ slot.Legal ∧
      tickPhases s.cfg slot s.scan s.out = some ph ∧ t = s.afterTick ph) ∨
    (∃ res, t = { s with res := res }) ∨
    (∃ v, i = .rollingStore v ∧ s.wcur.toNat ≤ 2 ∧
      t = { s with swin := s.swin.set s.wcur.toNat v, wcur := advance s.wcur }) := by
  cases i with
  | parseText text =>
    cases h
    exact .inl ⟨_, _, rfl, fun _ => textBuffer_legal text, .inl rfl⟩
  | renderInt v m =>
    cases h
    obtain ⟨db, scan, heq, hl, hs⟩ := showInt_spec s (valueOf v) m
    exact .inl ⟨db, scan, heq, fun _ => hl, hs⟩
  | setDecimalPoint p =>
    change Host.Outcome.next _ = _ at h
    injection h with h
    split at h
    · exact .inl ⟨_, _, h.symm, fun hl => hl.setPoint _, .inr rfl⟩
    · exact .inl ⟨s.db, s.scan, h.symm, id, .inr rfl⟩
  | scanTick =>
    change execScanTick s = _ at h
    rcases execScanTick_cases s with ⟨-, he⟩ | ⟨_, -, -, he⟩ | ⟨slot, ph, hslot, hl, hph, he⟩
    · rw [he] at h; cases h
    · rw [he] at h; cases h
    · rw [he] at h
      cases h
      exact .inr (.inl ⟨rfl, slot, ph, hslot, hl, hph, rfl⟩)
  | medianOfThree a b c =>
    cases h
    exact .inr (.inr (.inl ⟨_, rfl⟩))
  | rollingStore v =>
    change execRollingStore v s = _ at h
    unfold execRollingStore at h
    split at h
    · cases h
      exact .inr (.inr (.inr ⟨v, rfl, by assumption, rfl⟩))
    · cases h
  | rollingAverage =>
    cases h
    exact .inr (.inr (.inl ⟨_, rfl⟩))

/-- The same outcome with the port and the host's inputs replaced. -/
def withInputs (port : List Byte) (hostIn : List HostEvent) : Outcome → Outcome
  | .next t => .next { t with port := port, hostIn := hostIn }
  | .fault r => .fault r
  | .refused r => .refused r

/-- No operation reads or writes the port or the host's inputs. -/
theorem exec_withInputs (i : Instr) (s : State) (port : List Byte) (hostIn : List HostEvent) :
    exec i { s with port := port, hostIn := hostIn } = withInputs port hostIn (exec i s) := by
  cases i with
  | parseText text => rfl
  | renderInt v m =>
    change Host.Outcome.next _ = Host.Outcome.next _
    congr 1
    unfold State.showInt
    simp only
    split
    · rfl
    split <;> rfl
  | setDecimalPoint p =>
    change Host.Outcome.next _ = Host.Outcome.next _
    congr 1
    simp only
    split <;> rfl
  | scanTick =>
    change execScanTick _ = withInputs _ _ (execScanTick s)
    unfold execScanTick
    simp only
    cases s.db.get? s.scan.toNat with
    | none => rfl
    | some slot =>
      simp only
      cases tickPhases s.cfg slot s.scan s.out <;> rfl
  | medianOfThree a b c => rfl
  | rollingStore v =>
    change execRollingStore _ _ = withInputs _ _ (execRollingStore v s)
    unfold execRollingStore
    simp only
    split <;> rfl
  | rollingAverage => rfl

/-- One more step of a run. -/
theorem run_succ (k : Nat) (s : State) :
    Sys2Proof.core.run (k + 1) s =
      (match step s with
        | .next t => Sys2Proof.core.run k t
        | .fault r => .fault r
        | .refused r => .refused r : Outcome) := by
  simp only [Host.Core.run]
  cases h : step s <;> simp only [show Sys2Proof.core.step s = step s from rfl, h] <;> rfl

theorem run_succ_of_next {k : Nat} {s t : State} (h : step s = .next t) :
    Sys2Proof.core.run (k + 1) s = Sys2Proof.core.run k t := by
  rw [run_succ, h]

end Sys2Proof.Machine
end

