-- ==== Sys2Proof/Tests/Slice0.lean ====
section
/-! SUPPORT. Our own tests, with expected results from spec/ (30_encoding.md R86, 95_test_vectors.md, the rules' own
examples), and for each statement with hypotheses a witness that meets them. -/

namespace Sys2Proof.Machine.Tests

/-! ### Well-formedness -/

/-- 30_encoding.md R77: a text with a 0x00 inside is refused. -/
theorem test_wellFormed_refuses_terminator_in_text : ¬ (Instr.parseText [0x31, 0x00, 0x32]).WellFormed := by decide

theorem test_wellFormed_accepts_text : (Instr.parseText [0x31, 0x2E, 0x32]).WellFormed := by decide

/-! ### Decoding: the words of 30_encoding.md R86, and one reserved opcode -/

theorem test_decode_parseText : decode [0x01, 0x31, 0x2E, 0x32, 0x32, 0x00, 0xFF] =
    .command (.parseText [0x31, 0x2E, 0x32, 0x32]) [0xFF] := by decide

theorem test_decode_renderInt : decode [0x02, 0x00, 0xFB, 0xFF] = .command (.renderInt 0xFFFB false) [] := by decide

theorem test_decode_setDecimalPoint : decode [0x03, 0x01] = .command (.setDecimalPoint 1) [] := by decide

theorem test_decode_scanTick : decode [0x04] = .command .scanTick [] := by decide

theorem test_decode_medianOfThree : decode [0x05, 0x05, 0x00, 0x01, 0x00, 0x09, 0x00] =
    .command (.medianOfThree 5 1 9) [] := by decide

theorem test_decode_rollingStore : decode [0x06, 0x0A, 0x00] = .command (.rollingStore 10) [] := by decide

theorem test_decode_rollingAverage : decode [0x07] = .command .rollingAverage [] := by decide

/-- 30_encoding.md R82. -/
theorem test_decode_reserved : decode [0x08, 0x04] = .reserved 0x08 [0x04] := by decide

/-- 30_encoding.md R72. -/
theorem test_decode_incomplete : decode [0x05, 0x05, 0x00, 0x01, 0x00, 0x09] = .incomplete := by decide

/-- The same command as a number, bit 0 in the first byte. -/
theorem test_decodeTableWord : decodeTableWord 32 0xFFFB0002 = some (.renderInt 0xFFFB false) ∧
    decodeTableWord 8 0x01 = some (.parseText []) ∧ decodeTableWord 8 0x05 = some (.medianOfThree 0 0 0) ∧
    decodeTableWord 8 0x08 = none := by decide

/-- 30_encoding.md R84. -/
theorem test_assemblyLine : assemblyLine (.renderInt 0xFFFB false) = "render_int -5, false" ∧
    assemblyLine (.medianOfThree 5 1 9) = "median_of_three 5, 1, 9" := by decide

/-! ### The glyph ROM -/

/-- FONT of 40_glyph_table.md R103. -/
def font : List (BitVec 7) := [0x3F, 0x06, 0x5B, 0x4F, 0x66, 0x6D, 0x7D, 0x07, 0x7F] ++
  [0x6F, 0x77, 0x7C, 0x39, 0x5E, 0x79, 0x71, 0x40, 0x74]

/-- 40_glyph_table.md R103: ROM_A = FONT[2:0], ROM_B = FONT[5:3], ROM_C = FONT[6], zero-extended. -/
theorem test_rom_is_the_font :
    defaultRomA.toList = font.map (fun f => (f.extractLsb' 0 3).zeroExtend 8) ∧
    defaultRomB.toList = font.map (fun f => (f.extractLsb' 3 3).zeroExtend 8) ∧
    defaultRomC.toList = font.map (fun f => (f.extractLsb' 6 1).zeroExtend 8) := by decide

/-! ### Operations -/

/-- The start state of 95_test_vectors.md section 3: DB = `[8., 8., 8.]`, SCAN = 2. -/
def start : State := { State.reset with db := Triple.fill ⟨8, true⟩, scan := 2 }

/-- What a display test looks at: the packed buffer and SCAN. -/
def display : Outcome → Option (List Byte × Counter)
  | .next t => some (packedBuffer t.db, t.scan)
  | .fault _ => none
  | .refused _ => none

/-- What a filter test looks at: SWIN, WCUR and RES. -/
def filter : Outcome → Option (Triple Sample × Counter × Sample)
  | .next t => some (t.swin, t.wcur, t.res)
  | .fault _ => none
  | .refused _ => none

/-- What a scanner test looks at: the phases recorded and SCAN. -/
def ticks : Outcome → Option (List TickPhases × Counter)
  | .next t => some (t.trace, t.scan)
  | .fault _ => none
  | .refused _ => none

/-- 95_test_vectors.md section 2: `"1.2.3."`. -/
theorem test_parseText_dots : display (exec (.parseText [0x31, 0x2E, 0x32, 0x2E, 0x33, 0x2E]) start) =
    some ([0x81, 0x82, 0x03], 0) := by decide

/-- 95_test_vectors.md section 2: `"x.5"`. -/
theorem test_parseText_dot_after_skipped : display (exec (.parseText [0x78, 0x2E, 0x35]) start) =
    some ([0x20, 0xA0, 0x05], 0) := by decide

/-- 95_test_vectors.md section 3: -99 in meter mode, the point on the minus slot. -/
theorem test_renderInt_meter_negative : display (exec (.renderInt 0xFF9D true) start) =
    some ([0x90, 0x09, 0x09], 0) := by decide

/-- 95_test_vectors.md section 3: 0 in meter mode keeps SCAN and sets no point. -/
theorem test_renderInt_zero_keeps_scan : display (exec (.renderInt 0 true) start) = some ([0x00, 0x00, 0x00], 2) := by
  decide

/-- 95_test_vectors.md section 4. -/
theorem test_setDecimalPoint : display (exec (.setDecimalPoint 1) { start with db := ⟨⟨32, false⟩, ⟨1, false⟩, ⟨2, false⟩⟩ }) =
    some ([0x20, 0x81, 0x02], 2) := by decide

/-- 95_test_vectors.md section 4: an out-of-range position. -/
theorem test_setDecimalPoint_out_of_range :
    display (exec (.setDecimalPoint 0xFF) { start with db := ⟨⟨32, false⟩, ⟨1, false⟩, ⟨2, false⟩⟩ }) =
      some ([0x20, 0x01, 0x02], 2) := by decide

/-- 95_test_vectors.md section 5: the phase sequence of one tick. -/
theorem test_scanTick_phases :
    ticks (exec .scanTick { start with
      out := ⟨0x02, 0x02, 0x02, 0b100⟩, scan := 0, db := ⟨⟨1, true⟩, ⟨8, true⟩, ⟨8, true⟩⟩ }) =
      some ([⟨⟨0x02, 0x02, 0x02, 0b000⟩, ⟨0x07, 0x07, 0x03, 0b000⟩, ⟨0x01, 0x07, 0x03, 0b000⟩,
        ⟨0x01, 0x07, 0x01, 0b000⟩, ⟨0x01, 0x07, 0x01, 0b001⟩⟩], 1) := by decide

/-- 42_scanner.md R148, the example: DB = `[bl, -, 5]`, SCAN = 2. -/
theorem test_scanTick_wraps :
    ticks (exec .scanTick { State.reset with scan := 2, db := ⟨⟨32, false⟩, ⟨16, false⟩, ⟨5, false⟩⟩ }) =
      some ([⟨⟨0x07, 0x07, 0x03, 0b000⟩, ⟨0x07, 0x07, 0x03, 0b000⟩, ⟨0x02, 0x02, 0x02, 0b000⟩,
        ⟨0x02, 0x02, 0x02, 0b000⟩, ⟨0x02, 0x02, 0x02, 0b100⟩⟩], 0) := by decide

/-- 95_test_vectors.md section 6: comparison is unsigned. -/
theorem test_medianOfThree_unsigned : filter (exec (.medianOfThree 32768 32767 0) State.reset) =
    some (⟨0, 0, 0⟩, 0, 32767) := by decide

/-- 95_test_vectors.md section 6: a tie. -/
theorem test_medianOfThree_tie : filter (exec (.medianOfThree 7 3 3) State.reset) = some (⟨0, 0, 0⟩, 0, 3) := by decide

/-- 43_sample_filter.md R164, the example. -/
theorem test_rollingStore : filter (exec (.rollingStore 5) State.reset) = some (⟨5, 0, 0⟩, 1, 0) := by decide

/-- 43_sample_filter.md R164: the cursor wraps from 2 to 0. -/
theorem test_rollingStore_wraps : filter (exec (.rollingStore 3) { State.reset with swin := ⟨1, 2, 0⟩, wcur := 2 }) =
    some (⟨1, 2, 3⟩, 0, 0) := by decide

/-- 95_test_vectors.md section 6: the sum needs 18 bits. -/
theorem test_rollingAverage_wide_sum :
    filter (exec .rollingAverage { State.reset with swin := ⟨65535, 65535, 65535⟩ }) =
      some (⟨65535, 65535, 65535⟩, 0, 65535) := by decide

/-- 95_test_vectors.md section 6: the zero quirk, truncating. -/
theorem test_rollingAverage_skips_zero : filter (exec .rollingAverage { State.reset with swin := ⟨1, 0, 2⟩ }) =
    some (⟨1, 0, 2⟩, 0, 1) := by decide

/-! ### Steps -/

/-- A command presented to the block runs in one step: `scan_tick` after reset shows digit 0 (70_reset_and_hazards.md
R202). -/
theorem test_step_runs_fetched_word : ticks (step (State.reset.withFetchWord 8 0x04)) =
    some ([⟨⟨0x07, 0x07, 0x03, 0b000⟩, ⟨0x07, 0x07, 0x03, 0b000⟩, ⟨0x07, 0x07, 0x03, 0b000⟩, ⟨0x07, 0x07, 0x03, 0b000⟩,
      ⟨0x07, 0x07, 0x03, 0b001⟩⟩], 1) := by decide

/-- 70_reset_and_hazards.md R200: a reset in the middle of a command discards its bytes. -/
theorem test_step_reset_discards_partial_command :
    step { start with port := [0x02, 0x01], hostIn := [.rst, .byte 0x04] } =
      .next { State.reset with hostIn := [.byte 0x04] } := rfl

/-! ### Witnesses: states and operands that meet the hypotheses of each statement -/

/-- A legal state that is not the reset state: `[8., 8., 8.]`, SCAN = 2. -/
theorem start_legal : start.Legal := by decide

theorem reset_legal : State.reset.Legal := by decide

theorem witness_RstTakesTheResetState :
    (∃ (s : State) (es : List HostEvent), s.hostIn = .rst :: es ∧ s.port ≠ []) ∧
    ∃ (s : State) (b : Byte) (bs : List Byte) (es : List HostEvent),
      s.hostIn = presents (b :: bs) ++ .rst :: es ∧ decode (s.port ++ b :: bs) = .incomplete :=
  ⟨⟨{ start with port := [0x02], hostIn := [.rst] }, [], rfl, by decide⟩,
    { start with port := [0x02], hostIn := [.byte 0x01, .byte 0xE8, .rst] }, 0x01, [0xE8], [], rfl, by decide⟩

theorem witness_EveryStepKeepsTheStateLegal : ∃ s t : State, s.Legal ∧ step s = .next t ∧ t ≠ s :=
  ⟨start.withFetchWord 8 0x04, _, by decide, rfl, by decide⟩

theorem witness_LegalStatesNeverStop : ∃ s : State, s.Legal := ⟨start, start_legal⟩

theorem witness_RunsNeverStopAndStayLegal : ∃ s : State, s.Legal ∧ s.hostIn ≠ [] :=
  ⟨start.withFetchWord 8 0x04, by decide, by decide⟩

theorem witness_NoStepChangesTheConfiguration : ∃ s t : State, step s = .next t ∧ t ≠ s :=
  ⟨start.withFetchWord 8 0x04, _, rfl, by decide⟩

theorem witness_OnlyTheListedOperationsWriteEachRegister :
    (∃ i t, exec i start = .next t ∧ t.db ≠ start.db ∧ t.scan ≠ start.scan) ∧
    (∃ i t, exec i start = .next t ∧ t.swin ≠ start.swin ∧ t.wcur ≠ start.wcur) ∧
    (∃ i t, exec i start = .next t ∧ t.res ≠ start.res) ∧
    (∃ i t, exec i start = .next t ∧ t.out ≠ start.out ∧ t.trace ≠ start.trace) :=
  ⟨⟨.parseText [], _, rfl, by decide, by decide⟩, ⟨.rollingStore 5, _, rfl, by decide, by decide⟩,
    ⟨.medianOfThree 5 1 9, _, rfl, by decide⟩, ⟨.scanTick, _, rfl, by decide, by decide⟩⟩

theorem witness_UnusedLinesNeverChange : ∃ i t, start.cfg.Admissible ∧ exec i start = .next t ∧ t.out ≠ start.out :=
  ⟨.scanTick, _, by decide, rfl, by decide⟩

theorem witness_DisplayIsDarkUntilTheFirstTick :
    ∃ is t, Instr.scanTick ∉ is ∧ execAll is (State.resetWith defaultConfig) = .next t ∧ t.db ≠ State.reset.db :=
  ⟨[.renderInt 5 false, .rollingAverage], _, by decide, rfl, by decide⟩

theorem witness_DecodeOfEncodeIsTheInstruction : ∃ i : Instr, i.WellFormed ∧ i ≠ .parseText [] :=
  ⟨.parseText [0x31, 0xFF], by decide, by decide⟩

theorem witness_DecodedBytesAreTheEncoding : ∃ bs i rest, decode bs = .command i rest ∧ bs ≠ encode i ++ rest :=
  ⟨[0x02, 0xFE, 0x07, 0x00, 0x04], .renderInt 7 false, [0x04], by decide, by decide⟩

theorem witness_CommandLengthFollowsTheOpcode :
    decode [0x03] = .incomplete ∧ (decode [0x03, 0xFF]).rest? = some [] ∧
    decode [0x06, 0x00] = .incomplete ∧ (decode [0x06, 0x00, 0x00]).rest? = some [] ∧
    decode [0x02, 0x00, 0x00] = .incomplete ∧ (decode [0x02, 0x00, 0x00, 0x00]).rest? = some [] ∧
    (decode [0x05, 0x00, 0x00, 0x00, 0x00, 0x00, 0x00]).rest? = some [] ∧
    (decode [0x01, 0x00, 0x00]).rest? = some [0x00] ∧ decode [0x01, 0x31] = .incomplete ∧
    decode [0x08] = .reserved 0x08 [] ∧ decode [0xFF] = .reserved 0xFF [] ∧ decode [0x00] = .reserved 0x00 [] := by
  decide

theorem witness_StepRunsTheDecodedCommand :
    ∃ (s : State) (i : Instr) (bs : List Byte) (es : List HostEvent),
      s.hostIn = presents bs ++ es ∧ bs ≠ [] ∧ decode (s.port ++ bs) = .command i [] ∧ s.port ≠ [] :=
  ⟨{ start with port := [0x06, 0x0A], hostIn := [.byte 0x00, .rst] }, .rollingStore 10, [0x00], [.rst], rfl, by decide,
    by decide, by decide⟩

theorem witness_ReservedOpcodesAreDiscarded :
    ∃ s : State, s.port = [] ∧ s.hostIn = .byte 0x08 :: [.rst] ∧ 8 ≤ (0x08 : Byte).toNat :=
  ⟨{ start with hostIn := [.byte 0x08, .rst] }, rfl, rfl, by decide⟩

theorem witness_SplitCommandIsHeldThenRuns :
    ∃ (i : Instr) (p q : List Byte), i.WellFormed ∧ encode i = p ++ q ∧ p ≠ [] ∧ q ≠ [] ∧ start.port = [] :=
  ⟨.parseText [0x31, 0x32], [0x01, 0x31], [0x32, 0x00], by decide, by decide, by decide, by decide, rfl⟩

theorem witness_IncompleteCommandWaitsForEver :
    ∃ s : State, s.hostIn = [] ∧ decode s.port = .incomplete ∧ s.port ≠ [] :=
  ⟨{ start with port := [0x01, 0x31] }, rfl, by decide, by decide⟩

theorem witness_CommandStreamIsTheFoldOfOperations :
    ∃ is : List Instr, (∀ i ∈ is, i.WellFormed) ∧ start.port = [] ∧ is ≠ [] :=
  ⟨[.parseText [0x35], .scanTick], by decide, rfl, by decide⟩

theorem witness_FetchedWordIsExecutedNext : ∃ i, decodeTableWord 24 0x000A06 = some i := ⟨.rollingStore 10, by decide⟩

theorem witness_ParseTextSkipsOtherCharacters : Skipped 0x78 ∧ Skipped 0xFF ∧ Skipped 0x01 := by decide

theorem witness_ParseTextStopsAfterThreeSlots : slotsProduced [0x31, 0x2E, 0x32, 0x32] = 3 := by decide

theorem witness_ParseTextTakesOneMoreCharacter :
    (Instr.parseText [0x78, 0x31, 0x32]).WellFormed ∧ slotsProduced [0x78, 0x31, 0x32] < 3 ∧
    (∃ t, exec (.parseText [0x78, 0x31, 0x32]) start = .next t) ∧ (0x2D : Byte) ≠ 0x2E ∧ glyphOf 0x2D = some 16 :=
  ⟨by decide, by decide, ⟨_, rfl⟩, by decide, by decide⟩

/-- A value at each end of each row of 41_formatter.md R124. -/
theorem witness_RenderIntResultTable :
    (0x8000 : Value).toInt = -32768 ∧ (0xFF9C : Value).toInt = -100 ∧ (0xFF9D : Value).toInt = -99 ∧
    (0xFFF6 : Value).toInt = -10 ∧ (0xFFF7 : Value).toInt = -9 ∧ (0xFFFF : Value).toInt = -1 ∧ (0 : Value).toInt = 0 ∧
    (1 : Value).toInt = 1 ∧ (9 : Value).toInt = 9 ∧ (10 : Value).toInt = 10 ∧ (99 : Value).toInt = 99 ∧
    (100 : Value).toInt = 100 ∧ (999 : Value).toInt = 999 ∧ (1000 : Value).toInt = 1000 ∧ (9999 : Value).toInt = 9999 ∧
    (10000 : Value).toInt = 10000 ∧ (0x7FFF : Value).toInt = 32767 := by decide

theorem witness_RenderIntRangeCheckAndMeterStep :
    ∃ t, exec (.renderInt (BitVec.ofInt 16 ((1000 : Value).toInt / 10)) false) start = .next t ∧
      1000 ≤ (1000 : Value).toInt ∧ (9999 : Value).toInt ≤ 9999 ∧ 999 < (1000 : Value).toInt ∧
      (0xFF9C : Value).toInt < -99 ∧ 9999 < (10000 : Value).toInt :=
  ⟨_, rfl, by decide⟩

theorem witness_RewritesForgetTheOldBuffer :
    ∃ s', exec (.setDecimalPoint 0) State.reset = .next s' ∧ s' ≠ State.reset := ⟨_, rfl, by decide⟩

theorem witness_SetDecimalPointSetsOnePoint :
    State.reset.db.get? 2 = some ⟨32, false⟩ ∧ 2 < (3 : Byte).toNat ∧ 2 < (0xFF : Byte).toNat := by decide

theorem witness_DecimalPointsAccumulate :
    (∃ t w slot, exec (.setDecimalPoint 0) State.reset = .next t ∧ exec (.setDecimalPoint 2) t = .next w ∧
      w.db.get? 2 = some slot) ∧
    (∃ t, exec .scanTick start = .next t ∧ start.db.get? 1 = some ⟨8, true⟩) :=
  ⟨⟨_, _, _, rfl, rfl, rfl⟩, _, rfl, rfl⟩

theorem witness_LookupIsTheGlyphTable : 18 ≤ (18 : GlyphNum).toNat ∧ 18 ≤ (32 : GlyphNum).toNat ∧
    lookup defaultConfig 17 = some ⟨0x04, 0x06, 0x01⟩ := by decide

theorem witness_ScanTickFollowsItsSixSteps :
    start.db.get? start.scan.toNat = some ⟨8, true⟩ ∧ Slot.Legal ⟨8, true⟩ ∧ (8 : GlyphNum) = BitVec.ofNat 6 (8 : Fin 18).val ∧
    State.reset.db.get? State.reset.scan.toNat = some ⟨32, false⟩ ∧ Slot.Legal ⟨32, false⟩ := by decide

theorem witness_EndOfTickShowsTheSlot :
    start.cfg.Admissible ∧ start.db.get? start.scan.toNat = some ⟨8, true⟩ ∧ (∃ t, exec .scanTick start = .next t) ∧
    (start.cfg.pointOf .c).getLsbD 1 = true ∧
    (start.cfg.pointOf .c).getLsbD 0 = false ∧ (start.cfg.blankOf .c).getLsbD 0 = true ∧
    (start.cfg.pointOf .a).getLsbD 7 = false ∧ (start.cfg.blankOf .a).getLsbD 7 = false ∧
    (∃ t, exec .scanTick State.reset = .next t) ∧ State.reset.db.get? State.reset.scan.toNat = some ⟨32, false⟩ :=
  ⟨by decide, rfl, ⟨_, rfl⟩, by decide, by decide, by decide, by decide, by decide, ⟨_, rfl⟩, rfl⟩

theorem witness_ThreeTicksShowEachDigitOnce : start.Legal ∧ State.reset.Legal ∧ State.reset.scan = 0 := by decide

theorem witness_RewriteRestartsTheScan :
    start.Legal ∧ (∃ t, exec (.parseText [0x35]) start = .next t) ∧
    (∃ t, (0xFFFF : Value) ≠ 0 ∧ exec (.renderInt 0xFFFF true) start = .next t) ∧
    (∃ t, exec (.renderInt 0 true) start = .next t) ∧ (∃ t, exec (.setDecimalPoint 0) start = .next t) :=
  ⟨start_legal, ⟨_, rfl⟩, ⟨_, by decide, rfl⟩, ⟨_, rfl⟩, ⟨_, rfl⟩⟩

/-- The ends of the two invalid ranges, 18..31 and 33..63. -/
theorem witness_InvalidGlyphFaults :
    (∃ s : State, s.db.get? s.scan.toNat = some ⟨18, false⟩) ∧ ¬ Slot.Legal ⟨18, false⟩ ∧ ¬ Slot.Legal ⟨31, true⟩ ∧
    ¬ Slot.Legal ⟨33, false⟩ ∧ ¬ Slot.Legal ⟨63, true⟩ :=
  ⟨⟨{ start with db := Triple.fill ⟨18, false⟩ }, rfl⟩, by decide, by decide, by decide, by decide⟩

theorem witness_CounterValueThreeFaults : (∃ s : State, s.scan = 3) ∧ ∃ s : State, s.wcur = 3 :=
  ⟨⟨{ start with scan := 3 }, rfl⟩, { start with wcur := 3 }, rfl⟩

theorem witness_TickAsDriverCalls : start.Legal ∧ (∃ t, exec .scanTick start = .next t) ∧
    (ticks (exec .scanTick start)).map (fun p => p.1.map TickPhases.driverCalls) =
      some [[.deactivateAllAnodes, .setGroupPattern .a 0x00, .setGroupPattern .b 0x00, .setGroupPattern .c 0x02,
        .setGroupPattern .c 0x00, .selectActiveDigit 2]] :=
  ⟨start_legal, ⟨_, rfl⟩, by decide⟩

theorem witness_MedianIsTheMiddleValue :
    ([9, 5, 1] : List Sample).Perm [5, 1, 9] ∧
    2 ≤ ([100, 1023, 101] : List Sample).countP (fun x => (100 : Sample) ≤ x ∧ x ≤ (101 : Sample)) := by decide

theorem witness_RollingStoreWritesTheCursorSlot :
    State.reset.wcur.toNat ≤ 2 ∧ (2 : Counter).toNat ≤ 2 ∧ ¬ (3 : Counter).toNat ≤ 2 := by decide

theorem witness_RollingAverageSkipsZeros :
    State.reset.swin = ⟨0, 0, 0⟩ ∧ ({ start with swin := ⟨0, 0, 1⟩ } : State).swin ≠ ⟨0, 0, 0⟩ := by decide

theorem witness_RollingAverageBounds :
    (∃ t, exec .rollingAverage { start with swin := ⟨0, 0, 9⟩ } = .next t) ∧ (⟨0, 0, 9⟩ : Triple Sample) ≠ ⟨0, 0, 0⟩ ∧
      (∀ x ∈ ([0, 0, 9] : List Sample), x ≠ 0 → 9 ≤ x.toNat) ∧ (∀ x ∈ ([0, 0, 9] : List Sample), x.toNat ≤ 9) :=
  ⟨⟨{ start with swin := ⟨0, 0, 9⟩, res := average ⟨0, 0, 9⟩ }, rfl⟩, by decide, by simp, by simp⟩

theorem witness_AverageAfterThreeStores :
    start.wcur.toNat ≤ 2 ∧ ({ start with wcur := 2 } : State).wcur.toNat ≤ 2 ∧
    ([301, 100, 200] : List Sample).Perm [100, 200, 301] := by decide

end Sys2Proof.Machine.Tests
end

section
/-! Proofs of the statements about the state (10_state.md). First the facts about the outputs, the unused lines, what
each operation may write and the legal states; then the statements. -/

namespace Sys2Proof.Machine

/-! ### Unused lines (10_state.md R35) -/

/-- Unused lines are a view of the outputs and the configuration alone. -/
theorem unusedLines_congr {s t : State} (hout : t.out = s.out) (hcfg : t.cfg = s.cfg) (x : SegGroup) :
    unusedLines t x = unusedLines s x := by
  simp only [unusedLines, hout, hcfg]

/-- The lines step 3 clears are those of one ROM entry, or none (42_scanner.md R144). -/
theorem showGlyph_lines_rom {cfg : Config} {g : GlyphNum} {o o' : Outputs} (h : o.showGlyph cfg g = some o')
    (x : SegGroup) :
    ∃ p : Lines, (p = 0 ∨ ∃ k : Fin 18, p = (cfg.romOf x)[k]) ∧ o'.lines x = o.lines x &&& ~~~p := by
  rcases showGlyph_eq_some h with ⟨-, rfl⟩ | ⟨-, hg, rfl⟩
  · exact ⟨0, .inl rfl, BitVec.and_allOnes.symm⟩
  · exact ⟨_, .inr ⟨⟨g.toNat, hg⟩, by cases x <;> rfl⟩, Outputs.lines_light _ _ x⟩

/-- Setting lines `b`, clearing lines `p`, then clearing or setting lines `q`: outside `b` and `q` only the clearing of
`p` shows. -/
theorem set_clear_point_outside (o b p q : Lines) (dp : Bool) :
    (if dp then (o ||| b) &&& ~~~p &&& ~~~q else (o ||| b) &&& ~~~p ||| q) &&& ~~~(b ||| q) =
      o &&& ~~~(b ||| q) &&& ~~~p := by
  ext i hi
  cases hb : b[i] <;> cases hq : q[i] <;> cases dp <;> simp [hb, hq]

/-- Clearing lines of `b` changes nothing outside `b` and `q`. -/
theorem clear_outside (o b p q : Lines) (hp : p &&& ~~~b = 0) : o &&& ~~~(b ||| q) &&& ~~~p = o &&& ~~~(b ||| q) := by
  ext i hi
  have hpi : (p[i] && !b[i]) = false := by
    rw [← BitVec.getElem_not, ← BitVec.getElem_and, hp]
    exact BitVec.getElem_zero hi
  cases hb : b[i]
  · have hp0 : p[i] = false := by simpa [hb] using hpi
    simp [hb, hp0]
  · simp [hb]

/-- A tick can only clear unused lines, and only those its ROM entry names. -/
theorem unusedLines_afterTick {s : State} {slot : Slot} {ph : TickPhases}
    (h : tickPhases s.cfg slot s.scan s.out = some ph) (x : SegGroup) :
    ∃ p : Lines, (p = 0 ∨ ∃ k : Fin 18, p = (s.cfg.romOf x)[k]) ∧
      unusedLines (s.afterTick ph) x = unusedLines s x &&& ~~~p := by
  obtain ⟨h1, h2, h3, h4, h5⟩ := tickPhases_eq_some h
  obtain ⟨p, hp, hp3⟩ := showGlyph_lines_rom h3 x
  refine ⟨p, hp, ?_⟩
  have hp5 : ph.p5.lines x = if slot.dp then (s.out.lines x ||| s.cfg.blankOf x) &&& ~~~p &&& ~~~s.cfg.pointOf x
      else (s.out.lines x ||| s.cfg.blankOf x) &&& ~~~p ||| s.cfg.pointOf x := by
    simp only [h5, h4, Outputs.lines_select, Outputs.lines_showPoint, hp3, h2, h1, Outputs.lines_allOff,
      Outputs.lines_deactivate]
  simp only [unusedLines, State.afterTick_out, State.afterTick_cfg, hp5]
  exact set_clear_point_outside _ _ _ _ _

/-- Condition (b) of 40_glyph_table.md R104, by group. -/
theorem rom_outside_blank {cfg : Config} (h : cfg.Admissible) (x : SegGroup) (k : Fin 18) :
    (cfg.romOf x)[k] &&& ~~~cfg.blankOf x = 0 := by
  obtain ⟨hb, -⟩ := h
  obtain ⟨ha, hb, hc⟩ := hb k
  cases x
  · exact ha
  · exact hb
  · exact hc

/-- With an admissible configuration a tick keeps every unused line. -/
theorem unusedLines_afterTick_of_admissible {s : State} {slot : Slot} {ph : TickPhases} (hadm : s.cfg.Admissible)
    (h : tickPhases s.cfg slot s.scan s.out = some ph) (x : SegGroup) :
    unusedLines (s.afterTick ph) x = unusedLines s x := by
  obtain ⟨p, hp, heq⟩ := unusedLines_afterTick h x
  have hpb : p &&& ~~~s.cfg.blankOf x = 0 := by
    rcases hp with rfl | ⟨k, rfl⟩
    · exact BitVec.zero_and
    · exact rom_outside_blank hadm x k
  rw [heq]
  exact clear_outside _ _ _ _ hpb

/-- Where the unused lines are 0 a tick keeps them 0, whatever the configuration. -/
theorem unusedLines_afterTick_eq_zero {s : State} {slot : Slot} {ph : TickPhases} {x : SegGroup}
    (h : tickPhases s.cfg slot s.scan s.out = some ph) (hz : unusedLines s x = 0) :
    unusedLines (s.afterTick ph) x = 0 := by
  obtain ⟨p, -, heq⟩ := unusedLines_afterTick h x
  rw [heq, hz]
  exact BitVec.zero_and

/-- After reset OUT_X is BLANK_X, so no unused line is high (70_reset_and_hazards.md R201). -/
theorem unusedLines_resetWith (cfg : Config) (x : SegGroup) : unusedLines (State.resetWith cfg) x = 0 := by
  have hout : (State.resetWith cfg).out.lines x = cfg.blankOf x := by cases x <;> rfl
  rw [unusedLines, hout]
  change cfg.blankOf x &&& ~~~(cfg.blankOf x ||| cfg.pointOf x) = 0
  ext i hi
  cases hb : (cfg.blankOf x)[i] <;> simp [hb]

/-! ### What each operation may write (10_state.md R33) -/

/-- `t` is `s` but for the fields that operation `i` may write: the column "written by" of 10_state.md R33. -/
def WritesOnlyItsRegisters (i : Instr) (s t : State) : Prop :=
  match i with
  | .parseText _ => ∃ db scan, t = { s with db := db, scan := scan }
  | .renderInt _ _ => ∃ db scan, t = { s with db := db, scan := scan }
  | .setDecimalPoint _ => ∃ db, t = { s with db := db }
  | .scanTick => ∃ out scan trace, t = { s with out := out, scan := scan, trace := trace }
  | .medianOfThree _ _ _ => ∃ res, t = { s with res := res }
  | .rollingStore _ => ∃ swin wcur, t = { s with swin := swin, wcur := wcur }
  | .rollingAverage => ∃ res, t = { s with res := res }

/-- A `scan_tick` that completes shows a legal slot and ends as its phases say (42_scanner.md R148). -/
theorem exec_scanTick_eq_next {s t : State} (h : exec .scanTick s = .next t) :
    ∃ slot ph, s.db.get? s.scan.toNat = some slot ∧ slot.Legal ∧ tickPhases s.cfg slot s.scan s.out = some ph ∧
      t = s.afterTick ph := by
  change execScanTick s = _ at h
  rcases execScanTick_cases s with ⟨-, he⟩ | ⟨_, -, -, he⟩ | ⟨slot, ph, hslot, hl, hph, he⟩
  · rw [he] at h; cases h
  · rw [he] at h; cases h
  · rw [he] at h
    cases h
    exact ⟨slot, ph, hslot, hl, hph, rfl⟩

/-- A `rolling_store` that completes finds a slot at the cursor, writes it and advances (43_sample_filter.md R164). -/
theorem exec_rollingStore_eq_next {v : Sample} {s t : State} (h : exec (.rollingStore v) s = .next t) :
    s.wcur.toNat ≤ 2 ∧ t = { s with swin := s.swin.set s.wcur.toNat v, wcur := advance s.wcur } := by
  change execRollingStore v s = _ at h
  unfold execRollingStore at h
  split at h
  · cases h
    exact ⟨by assumption, rfl⟩
  · cases h

/-- `set_decimal_point` changes DB alone, for every position (41_formatter.md R126). -/
theorem exec_setDecimalPoint_eq (p : Byte) (s : State) :
    exec (.setDecimalPoint p) s = .next { s with db := setPoint s.db p.toNat } := by
  change Host.Outcome.next _ = Host.Outcome.next _
  by_cases hp : p.toNat ≤ 2
  · rw [if_pos hp]
  · rw [if_neg hp, setPoint, Triple.modify_of_gt _ _ (by omega)]

/-- Every operation writes only its own registers. -/
theorem exec_writesOnlyItsRegisters {i : Instr} {s t : State} (h : exec i s = .next t) :
    WritesOnlyItsRegisters i s t := by
  cases i with
  | parseText text => cases h; exact ⟨_, _, rfl⟩
  | renderInt v m =>
    cases h
    obtain ⟨db, scan, heq, -, -⟩ := showInt_spec s (valueOf v) m
    exact ⟨db, scan, heq⟩
  | setDecimalPoint p =>
    rw [exec_setDecimalPoint_eq] at h
    cases h
    exact ⟨_, rfl⟩
  | scanTick =>
    obtain ⟨_, _, -, -, -, rfl⟩ := exec_scanTick_eq_next h
    exact ⟨_, _, _, rfl⟩
  | medianOfThree a b c => cases h; exact ⟨_, rfl⟩
  | rollingStore v =>
    obtain ⟨-, rfl⟩ := exec_rollingStore_eq_next h
    exact ⟨_, _, rfl⟩
  | rollingAverage => cases h; exact ⟨_, rfl⟩

/-! ### Legal states -/

/-- The reset state is legal (70_reset_and_hazards.md R201). -/
theorem resetWith_legal (cfg : Config) : (State.resetWith cfg).Legal :=
  ⟨⟨blankSlot_legal, blankSlot_legal, blankSlot_legal⟩, Nat.zero_le 2, Nat.zero_le 2, .inl rfl,
    ⟨unusedLines_resetWith cfg .a, unusedLines_resetWith cfg .b, unusedLines_resetWith cfg .c⟩, rfl, nofun⟩

/-- An `rst` gives the registers of the reset state and keeps the record of ticks. -/
theorem takeReset_legal {s : State} (h : s.Legal) (es : List HostEvent) : (s.takeReset es).Legal := by
  obtain ⟨-, -, -, -, -, -, htrace⟩ := h
  obtain ⟨hdb, hscan, hwcur, hanode, hunused, hport, -⟩ := resetWith_legal s.cfg
  exact ⟨hdb, hscan, hwcur, hanode, hunused, hport, htrace⟩

/-- Accepting a whole command empties the port, and an empty port holds no complete command. -/
theorem accepted_legal {s : State} (h : s.Legal) (rest : List Byte) : (s.accepted rest).Legal := by
  obtain ⟨hdb, hscan, hwcur, hanode, hunused, -, htrace⟩ := h
  exact ⟨hdb, hscan, hwcur, hanode, hunused, rfl, htrace⟩

/-- Waiting is legal while what the port then holds is no complete command (30_encoding.md R72). -/
theorem awaitRest_legal {s : State} (h : s.Legal) (hport : decode (s.port ++ offered s.hostIn) = .incomplete) :
    s.awaitRest.Legal := by
  obtain ⟨hdb, hscan, hwcur, hanode, hunused, -, htrace⟩ := h
  exact ⟨hdb, hscan, hwcur, hanode, hunused, hport, htrace⟩

/-- A completed tick keeps the state legal: SCAN advances, one digit is selected, unused lines stay 0 and the new record
does not ghost. -/
theorem afterTick_legal {s : State} {slot : Slot} {ph : TickPhases} (h : s.Legal)
    (hph : tickPhases s.cfg slot s.scan s.out = some ph) : (s.afterTick ph).Legal := by
  obtain ⟨hdb, hscan, hwcur, -, ⟨ha, hb, hc⟩, hport, htrace⟩ := h
  have hghost : ph.NoGhost := tickPhases_noGhost hph hscan
  have hanode : LegalAnode ph.p5.anode := by
    obtain ⟨-, -, -, -, hone, -⟩ := hghost
    exact .inr hone
  refine ⟨hdb, advance_le s.scan, hwcur, hanode, ?_, hport, ?_⟩
  · exact ⟨unusedLines_afterTick_eq_zero hph ha, unusedLines_afterTick_eq_zero hph hb,
      unusedLines_afterTick_eq_zero hph hc⟩
  · intro t ht
    rcases List.mem_append.mp ht with ht | ht
    · exact htrace t ht
    · rw [List.mem_singleton.mp ht]
      exact hghost

/-- Every operation keeps the state legal. -/
theorem exec_legal {i : Instr} {s t : State} (h : s.Legal) (ht : exec i s = .next t) : t.Legal := by
  have hs := h
  obtain ⟨hdb, hscan, hwcur, hrest⟩ := h
  rcases exec_cases ht with ⟨db, scan, rfl, hdb', hscan'⟩ | ⟨-, slot, ph, -, -, hph, rfl⟩ | ⟨res, rfl⟩ | ⟨v, -, -, rfl⟩
  · refine ⟨hdb' hdb, ?_, hwcur, hrest⟩
    rcases hscan' with rfl | rfl
    · exact Nat.zero_le 2
    · exact hscan
  · exact afterTick_legal hs hph
  · exact ⟨hdb, hscan, hwcur, hrest⟩
  · exact ⟨hdb, hscan, advance_le s.wcur, hrest⟩

/-- Settles O5: a reset gives the reset registers, a command is accepted and then executed, a reserved opcode is only
accepted, and waiting leaves an incomplete port. -/
theorem everyStepKeepsTheStateLegal : Obligations.EveryStepKeepsTheStateLegal := by
  intro s t hs ht
  rcases step_cases s with ⟨es, -, he⟩ | ⟨i, rest, -, he⟩ | ⟨op, rest, -, he⟩ | ⟨hport, he⟩
  · rw [he] at ht; cases ht
    exact takeReset_legal hs es
  · rw [he] at ht
    exact exec_legal (accepted_legal hs rest) ht
  · rw [he] at ht; cases ht
    exact accepted_legal hs rest
  · rw [he] at ht; cases ht
    exact awaitRest_legal hs hport

/-- Settles O4: every register's reset value is legal, the outputs' for every configuration. -/
theorem resetStateIsLegal : Obligations.ResetStateIsLegal := resetWith_legal

/-- Settles O9: operation by operation, from the fields each one may write. -/
theorem onlyTheListedOperationsWriteEachRegister : Obligations.OnlyTheListedOperationsWriteEachRegister := by
  intro i s t h
  have hw := exec_writesOnlyItsRegisters h
  cases i with
  | parseText text => obtain ⟨db, scan, rfl⟩ := hw; simp
  | renderInt v m => obtain ⟨db, scan, rfl⟩ := hw; simp
  | setDecimalPoint p => obtain ⟨db, rfl⟩ := hw; simp
  | scanTick => obtain ⟨out, scan, trace, rfl⟩ := hw; simp
  | medianOfThree a b c => obtain ⟨res, rfl⟩ := hw; simp
  | rollingStore v => obtain ⟨swin, wcur, rfl⟩ := hw; simp
  | rollingAverage => obtain ⟨res, rfl⟩ := hw; simp

/-- Settles O10: only a tick writes the outputs, and an admissible ROM entry names no unused line. -/
theorem unusedLinesNeverChange : Obligations.UnusedLinesNeverChange := by
  intro i s t x hadm h
  rcases exec_cases h with ⟨db, scan, rfl, -, -⟩ | ⟨-, slot, ph, -, -, hph, rfl⟩ | ⟨res, rfl⟩ | ⟨v, -, -, rfl⟩
  · exact unusedLines_congr rfl rfl x
  · exact unusedLines_afterTick_of_admissible hadm hph x
  · exact unusedLines_congr rfl rfl x
  · exact unusedLines_congr rfl rfl x

/-! ### A tick as driver calls (10_state.md R41) -/

/-- Between two phases nothing but group patterns is set. -/
theorem eq_setGroupPattern_of_mem_segmentCalls {before after : Outputs} {c : DriverCall}
    (h : c ∈ segmentCalls before after) : ∃ x bits, c = .setGroupPattern x bits := by
  have hgroup : ∀ x, c ∈ groupCalls before after x → ∃ x bits, c = .setGroupPattern x bits := by
    intro x hc
    unfold groupCalls at hc
    split at hc
    · cases hc
    · exact ⟨x, _, List.mem_singleton.mp hc⟩
  simp only [segmentCalls, List.mem_append] at h
  rcases h with (ha | hb) | hc
  · exact hgroup .a ha
  · exact hgroup .b hb
  · exact hgroup .c hc

/-- The digit a one-hot ANODE selects is the digit it was made from (42_scanner.md R146). -/
theorem selected?_of_anode {o : Outputs} {d : Counter} (hd : d.toNat ≤ 2) (h : o.anode = 1#3 <<< d.toNat) :
    o.selected? = some d.toNat := by
  unfold Outputs.selected?
  rw [h]
  clear h o
  revert d
  decide

/-- Settles O42: the anode calls are those of P1 and P5, and the changes between P1 and P4 are the calls between. -/
theorem tickAsDriverCalls : Obligations.TickAsDriverCalls := by
  intro s t hs h
  obtain ⟨-, hscan, -⟩ := hs
  obtain ⟨slot, ph, -, -, hph, rfl⟩ := exec_scanTick_eq_next h
  obtain ⟨-, -, -, -, hanode⟩ := tickPhases_anode hph
  refine ⟨ph, segmentCalls ph.p1 ph.p2 ++ segmentCalls ph.p2 ph.p3 ++ segmentCalls ph.p3 ph.p4, rfl, ?_, ?_⟩
  · simp [TickPhases.driverCalls, selected?_of_anode hscan hanode]
  · intro c hc
    simp only [List.mem_append] at hc
    rcases hc with (hc | hc) | hc <;> exact eq_setGroupPattern_of_mem_segmentCalls hc

/-! ### The byte form of a slot (10_state.md R23) -/

/-- Settles O43: the three parts of the packed byte stand at bits 7, 6 and 5:0. -/
theorem slotByteForm : Obligations.SlotByteForm := by
  refine ⟨fun slot => ⟨?_, ?_, ?_⟩, rfl, rfl, rfl⟩
  · rw [Slot.pack, BitVec.getLsbD_append, BitVec.getLsbD_append]
    simp
  · rw [Slot.pack, BitVec.getLsbD_append, BitVec.getLsbD_append]
    simp
  · exact BitVec.extractLsb'_append_eq_right

end Sys2Proof.Machine
end

section
/-! Proofs of the statements about memory and transitions (20_memory.md). First the decoder on encoded bytes and the
step on one encoded command; then the command stream, the rewrites of the buffer, and the counter value 3. -/

namespace Sys2Proof

/-! ### The decoder on encoded bytes -/

/-- The operand bytes of a well-formed instruction decode to it, whatever follows them (30_encoding.md R73 to R77). -/
theorem decodeOperands_operandBytes {i : Instr} (h : i.WellFormed) (rest : List Byte) :
    decodeOperands i.opcode (i.operandBytes ++ rest) = .command i rest := by
  cases i with
  | parseText text =>
    have hread : readText (text ++ [0x00] ++ rest) = some (text, rest) := by
      rw [List.append_assoc]
      exact readText_append text rest h
    simp only [Instr.opcode, Instr.operandBytes, decodeOperands, hread]
  | renderInt v m => simp [Instr.opcode, Instr.operandBytes, decodeOperands]
  | setDecimalPoint p => rfl
  | scanTick => rfl
  | medianOfThree a b c => simp [Instr.opcode, Instr.operandBytes, decodeOperands]
  | rollingStore v => simp [Instr.opcode, Instr.operandBytes, decodeOperands]
  | rollingAverage => rfl

/-- The decoder reads an encoded command back from the front of the stream. -/
theorem decode_encode_append {i : Instr} (h : i.WellFormed) (rest : List Byte) :
    decode (encode i ++ rest) = .command i rest := by
  rw [encode, List.cons_append, decode_cons, opcodeOf_opcodeByte]
  exact decodeOperands_operandBytes h rest

end Sys2Proof

namespace Sys2Proof.Machine

/-! ### The command stream (20_memory.md R56; 30_encoding.md R71) -/

/-- With an empty port, an encoded command presented first is the one executed, and what the host presents after it
stays presented. -/
theorem step_encode {i : Instr} (hi : i.WellFormed) {s : State} (hport : s.port = []) (es : List HostEvent) :
    step { s with hostIn := presents (encode i) ++ es } = exec i { s with hostIn := es } := by
  have hdec : decode (s.port ++ (encode i ++ offered es)) = .command i (offered es) := by
    rw [hport, List.nil_append, decode_encode_append hi]
  have hacc : ({ s with hostIn := presents (encode i) ++ es } : State).accepted (offered es) =
      { s with hostIn := es } := by
    simp [State.accepted, hport]
  rw [step_presents _ (encode i) es (List.cons_ne_nil _ _) rfl]
  simp only [hdec, hacc]

/-- Settles O22, by induction on the sequence: no operation touches the port or the host's inputs, so after the first
command the rest of the stream stands before an empty port again. -/
theorem commandStreamIsTheFoldOfOperations : Obligations.CommandStreamIsTheFoldOfOperations := by
  intro is s hwf hport
  induction is generalizing s with
  | nil => rfl
  | cons i is ih =>
    obtain ⟨hi, his⟩ := List.forall_mem_cons.mp hwf
    have hstep : step { s with hostIn := presents (encodeAll (i :: is)) } =
        withInputs s.port (presents (encodeAll is)) (exec i s) := by
      rw [encodeAll, List.flatMap_cons, presents_append, step_encode hi hport]
      exact exec_withInputs i s s.port _
    have hexec : exec i { s with hostIn := [] } = withInputs s.port [] (exec i s) := exec_withInputs i s s.port []
    rw [List.length_cons, run_succ, execAll, hstep, hexec]
    cases exec i s with
    | next t => exact ih { t with port := s.port } his hport
    | fault r => rfl
    | refused r => rfl

/-! ### The rewrites of the buffer (20_memory.md R55) -/

/-- `render_int` does not read the buffer it rewrites (41_formatter.md R119). -/
theorem State.showInt_with_db (s : State) (db : Triple Slot) (value : Int) (m : Bool) :
    ({ s with db := db } : State).showInt value m = s.showInt value m := by
  unfold State.showInt
  simp only
  split
  · rfl
  split <;> rfl

/-- Settles O32: `set_decimal_point` changes DB alone, and neither rewrite reads DB. -/
theorem rewritesForgetTheOldBuffer : Obligations.RewritesForgetTheOldBuffer := by
  intro s s' p h
  rw [exec_setDecimalPoint_eq] at h
  cases h
  exact ⟨fun text => rfl, fun v m => congrArg Host.Outcome.next (s.showInt_with_db _ (valueOf v) m)⟩

/-! ### The counter value 3 (20_memory.md R51) -/

/-- A tick with SCAN above 2 finds no slot to show. -/
theorem exec_scanTick_of_scan_gt {s : State} (h : 2 < s.scan.toNat) : exec .scanTick s = .fault .scanOutOfRange := by
  have hnone : s.db.get? s.scan.toNat = none := (Triple.get?_eq_none_iff _ _).mpr h
  change execScanTick s = _
  rw [execScanTick, hnone]

/-- A store with WCUR above 2 finds no slot to write. -/
theorem exec_rollingStore_of_wcur_gt {s : State} (v : Sample) (h : 2 < s.wcur.toNat) :
    exec (.rollingStore v) s = .fault .cursorOutOfRange :=
  if_neg (Nat.not_le.mpr h)

/-- Settles O41: the counter value 3 is above the last index. -/
theorem counterValueThreeFaults : Obligations.CounterValueThreeFaults :=
  ⟨fun _ h => exec_scanTick_of_scan_gt (by rw [h]; decide),
    fun _ v h => exec_rollingStore_of_wcur_gt v (by rw [h]; decide)⟩

end Sys2Proof.Machine
end

section
/-! Proofs of the statements about the encoding (30_encoding.md). First the decoder: what a decoded command says about
its bytes, and the command's length; then the step on bytes that are, or are not yet, one command; then operands and
character codes. -/

namespace Sys2Proof

/-! ### From a decoded command back to its bytes (30_encoding.md R73 to R77) -/

/-- The bytes after the opcode byte are operand bytes of `i`, followed by `rest`: those an assembler writes, but for the
ignored bits 7:1 of the flags byte of `render_int` (30_encoding.md R75). -/
def OperandsOf (i : Instr) (bs rest : List Byte) : Prop :=
  bs = i.operandBytes ++ rest ∨
    ∃ (v : Value) (m : Bool) (flags : Byte), i = .renderInt v m ∧ meterFlag flags = m ∧
      bs = flags :: lowByte v :: highByte v :: rest

/-- What the operand decoder answers: a well-formed instruction of that opcode, whose operand bytes it has read. -/
theorem decodeOperands_eq_command {o : Opcode} {bs rest : List Byte} {i : Instr}
    (h : decodeOperands o bs = .command i rest) : i.opcode = o ∧ i.WellFormed ∧ OperandsOf i bs rest := by
  cases o
  case ptxt =>
    rw [decodeOperands] at h
    cases heq : readText bs with
    | none => rw [heq] at h; cases h
    | some p =>
      rw [heq] at h
      cases h
      obtain ⟨rfl, hall⟩ := readText_eq_some heq
      exact ⟨rfl, hall, .inl (by simp [Instr.operandBytes])⟩
  case rint =>
    match bs, h with
    | flags :: lo :: hi :: _, h =>
      cases h
      exact ⟨rfl, rfl, .inr ⟨joinLE lo hi, meterFlag flags, flags, rfl, rfl, by simp⟩⟩
  case sdp => match bs, h with | _ :: _, h => cases h; exact ⟨rfl, rfl, .inl rfl⟩
  case scan => cases h; exact ⟨rfl, rfl, .inl rfl⟩
  case med3 =>
    match bs, h with
    | _ :: _ :: _ :: _ :: _ :: _ :: _, h => cases h; exact ⟨rfl, rfl, .inl (by simp [Instr.operandBytes])⟩
  case rsto => match bs, h with | _ :: _ :: _, h => cases h; exact ⟨rfl, rfl, .inl (by simp [Instr.operandBytes])⟩
  case ravg => cases h; exact ⟨rfl, rfl, .inl rfl⟩

/-- A decoded command is its own opcode byte and its operand bytes. -/
theorem decode_eq_command {bs rest : List Byte} {i : Instr} (h : decode bs = .command i rest) :
    i.WellFormed ∧ ∃ operands, bs = opcodeByte i.opcode :: operands ∧ OperandsOf i operands rest := by
  cases bs with
  | nil => cases h
  | cons op bs =>
    rw [decode_cons] at h
    split at h
    next o ho =>
      obtain ⟨rfl, hwf, hops⟩ := decodeOperands_eq_command h
      exact ⟨hwf, bs, by rw [opcodeOf_eq_some ho], hops⟩
    next => cases h

/-- After an opcode's byte its operands are decoded. -/
theorem decode_opcodeByte_cons (o : Opcode) (bs : List Byte) : decode (opcodeByte o :: bs) = decodeOperands o bs := by
  rw [decode_cons, opcodeOf_opcodeByte]

/-- Format R (30_encoding.md R75). -/
theorem decode_renderInt (flags lo hi : Byte) (rest : List Byte) :
    decode (0x02 :: flags :: lo :: hi :: rest) = .command (.renderInt (joinLE lo hi) (meterFlag flags)) rest :=
  decode_opcodeByte_cons .rint (flags :: lo :: hi :: rest)

/-- A reserved opcode stays reserved whatever follows it (30_encoding.md R82). -/
theorem decode_append_of_reserved {bs rest : List Byte} {op : Byte} (more : List Byte)
    (h : decode bs = .reserved op rest) : decode (bs ++ more) = .reserved op (rest ++ more) := by
  cases bs with
  | nil => cases h
  | cons b bs =>
    rw [decode_cons] at h
    rw [List.cons_append, decode_cons]
    split at h
    next => exact absurd h (decodeOperands_ne_reserved _ _ _ _)
    next => cases h; rfl

/-- What stands before `rest` is the command itself, with nothing left over. -/
theorem exists_front_of_decode {bs rest : List Byte} {i : Instr} (h : decode bs = .command i rest) :
    ∃ front, bs = front ++ rest ∧ decode front = .command i [] := by
  obtain ⟨hwf, operands, rfl, hops | ⟨v, m, flags, rfl, rfl, rfl⟩⟩ := decode_eq_command h
  · exact ⟨encode i, by rw [hops]; rfl, by simpa using decode_encode_append hwf []⟩
  · exact ⟨[0x02, flags, lowByte v, highByte v], rfl, by
      rw [decode_renderInt, joinLE_lowByte_highByte]⟩

/-- The front command's own bytes decode to that command alone. -/
theorem decode_frontCommand {bs rest : List Byte} {i : Instr} (h : decode bs = .command i rest) :
    decode (frontCommand bs) = .command i [] := by
  obtain ⟨front, rfl, hfront⟩ := exists_front_of_decode h
  have heq : frontCommand (front ++ rest) = front := by simp [frontCommand, h, Decoded.rest?]
  rw [heq, hfront]

/-- A table word that stands for an instruction has it at the front of its bytes. -/
theorem exists_decode_of_decodeTableWord {nbits w : Nat} {i : Instr} (h : decodeTableWord nbits w = some i) :
    ∃ rest, decode (tableBytes nbits w) = .command i rest := by
  unfold decodeTableWord at h
  split at h
  next j rest hdec =>
    cases h
    exact ⟨rest, hdec⟩
  next => cases h
  next => cases h

/-- A command without its last bytes is incomplete (30_encoding.md R72): were it complete, those bytes would be left
over. -/
theorem decode_eq_incomplete_of_append {p q : List Byte} {i : Instr} (h : decode (p ++ q) = .command i []) (hq : q ≠ []) :
    decode p = .incomplete := by
  cases hp : decode p with
  | command j rest =>
    have hall := (decode_append q hp).symm.trans h
    injection hall with _ hrest
    exact absurd (List.append_eq_nil_iff.mp hrest).2 hq
  | reserved op rest => cases (decode_append_of_reserved q hp).symm.trans h
  | incomplete => rfl

/-! ### The command's length (30_encoding.md R83) -/

/-- The number of operand bytes of the formats of fixed length, N, P, R and S (30_encoding.md R73 to R76). -/
def operandCount : Opcode → Option Nat
  | .ptxt => none
  | .rint => some 3
  | .sdp => some 1
  | .scan => some 0
  | .med3 => some 6
  | .rsto => some 2
  | .ravg => some 0

/-- A format of fixed length takes its number of operand bytes, and waits while there are fewer. -/
theorem rest?_decodeOperands {o : Opcode} {n : Nat} (h : operandCount o = some n) (bs : List Byte) :
    (decodeOperands o bs).rest? = if bs.length < n then none else some (bs.drop n) := by
  cases o <;> cases h
  case rint => match bs with | [] | [_] | [_, _] => rfl | _ :: _ :: _ :: _ => simp [decodeOperands, Decoded.rest?]
  case sdp => match bs with | [] => rfl | _ :: _ => simp [decodeOperands, Decoded.rest?]
  case scan => rfl
  case med3 =>
    match bs with
    | [] | [_] | [_, _] | [_, _, _] | [_, _, _, _] | [_, _, _, _, _] => rfl
    | _ :: _ :: _ :: _ :: _ :: _ :: _ => simp [decodeOperands, Decoded.rest?]
  case rsto => match bs with | [] | [_] => rfl | _ :: _ :: _ => simp [decodeOperands, Decoded.rest?]
  case ravg => rfl

/-- A reserved opcode is a command of one byte (30_encoding.md R82). -/
theorem decode_reserved_cons {op : Byte} (h : op = 0 ∨ 8 ≤ op.toNat) (bs : List Byte) :
    decode (op :: bs) = .reserved op bs := by
  rw [decode_cons, (opcodeOf_eq_none_iff op).mpr h]

theorem all_ne_zero_of_notMem {text : List Byte} (h : 0x00 ∉ text) : text.all (· != 0) = true :=
  List.all_eq_true.mpr fun _ hb => bne_iff_ne.mpr (ne_of_mem_of_not_mem hb h)

/-- Settles O12: the opcode byte names the opcode, whose operand decoder reads back what the encoder wrote. -/
theorem decodeOfEncodeIsTheInstruction : Obligations.DecodeOfEncodeIsTheInstruction :=
  fun _ rest h => decode_encode_append h rest

/-- Settles O13: only the flags byte of `render_int` may differ from what the encoder writes. -/
theorem decodedBytesAreTheEncoding : Obligations.DecodedBytesAreTheEncoding := by
  intro bs rest i h
  obtain ⟨hwf, operands, rfl, hops | ⟨v, m, flags, rfl, hflag, rfl⟩⟩ := decode_eq_command h
  · exact ⟨hwf, .inl (by rw [hops]; rfl)⟩
  · exact ⟨hwf, .inr ⟨v, m, flags, rfl, hflag, rfl⟩⟩

/-- Settles O14, opcode by opcode: the fixed lengths from `operandCount`, the text's from its terminator. -/
theorem commandLengthFollowsTheOpcode : Obligations.CommandLengthFollowsTheOpcode := by
  intro op bs
  refine ⟨?_, ?_, ?_, ?_, ?_, ?_, fun h => decode_reserved_cons h bs⟩
  · rintro (rfl | rfl) <;> rfl
  · rintro rfl
    exact rest?_decodeOperands (o := .sdp) rfl bs
  · rintro rfl
    exact rest?_decodeOperands (o := .rsto) rfl bs
  · rintro rfl
    exact rest?_decodeOperands (o := .rint) rfl bs
  · rintro rfl
    exact rest?_decodeOperands (o := .med3) rfl bs
  · rintro rfl
    have hread : ∀ bs, decode (0x01 :: bs) = decodeOperands .ptxt bs := decode_opcodeByte_cons .ptxt
    refine ⟨?_, fun h => ?_⟩
    · rintro text rest h rfl
      rw [hread, decodeOperands, readText_append text rest (all_ne_zero_of_notMem h)]
      rfl
    · rw [hread, decodeOperands, readText_eq_none bs h]
      rfl

/-- Settles O17: the ten commands are well-formed and encode to the ten lines, so the lines decode to them. -/
theorem workedEncodingsAgree : Obligations.WorkedEncodingsAgree := by
  intro p hp
  have hencode : encode p.1 = p.2 ∧ p.1.WellFormed := by
    revert p
    decide
  obtain ⟨henc, hwf⟩ := hencode
  exact ⟨henc, by simpa [henc] using decode_encode_append hwf []⟩

end Sys2Proof

namespace Sys2Proof.Machine

/-! ### The step on the bytes of one command (30_encoding.md R71, R72, R82) -/

/-- Accepting what was presented, and no more, leaves the host's later inputs. -/
theorem accepted_offered {s : State} {bs : List Byte} {es : List HostEvent} (h : s.hostIn = presents bs ++ es) :
    s.accepted (offered es) = { s with port := [], hostIn := es } := by
  simp [State.accepted, h]

/-- Bytes that complete one command, with those in the port, make the step run it. -/
theorem step_of_decode_command {s : State} {i : Instr} {bs : List Byte} {es : List HostEvent}
    (h : s.hostIn = presents bs ++ es) (hne : bs ≠ []) (hdec : decode (s.port ++ bs) = .command i []) :
    step s = exec i { s with port := [], hostIn := es } := by
  have hdec' : decode (s.port ++ (bs ++ offered es)) = .command i (offered es) := by
    rw [← List.append_assoc]
    exact decode_append (offered es) hdec
  rw [step_presents s bs es hne h]
  simp only [hdec', accepted_offered h]

/-- Bytes that complete no command are held in the port. -/
theorem step_of_decode_incomplete {s : State} {bs : List Byte} (h : s.hostIn = presents bs)
    (hdec : decode (s.port ++ bs) = .incomplete) : step s = .next { s with port := s.port ++ bs, hostIn := [] } := by
  have hsplit : s.hostIn = presents bs ++ [] := by rw [h, List.append_nil]
  have hoff : offered s.hostIn = bs := by rw [hsplit, offered_presents_append]; exact List.append_nil bs
  have hafter : afterOffered s.hostIn = [] := by rw [hsplit, afterOffered_presents_append]; rfl
  have hwait : s.awaitRest = { s with port := s.port ++ bs, hostIn := [] } := by rw [State.awaitRest, hoff, hafter]
  rcases step_cases s with ⟨es, hrst, -⟩ | ⟨i, rest, hcmd, -⟩ | ⟨op, rest, hres, -⟩ | ⟨-, hstep⟩
  · rw [hrst] at hoff hafter
    cases hafter
  · rw [hoff, hdec] at hcmd
    cases hcmd
  · rw [hoff, hdec] at hres
    cases hres
  · rw [hstep, hwait]

/-- Settles O18, by `step_of_decode_command`: the decoder reads the command from the front of all that is presented. -/
theorem stepRunsTheDecodedCommand : Obligations.StepRunsTheDecodedCommand :=
  fun _ _ _ _ => step_of_decode_command

/-- Settles O19: the byte is a command of its own, and accepting it leaves the host's later inputs. -/
theorem reservedOpcodesAreDiscarded : Obligations.ReservedOpcodesAreDiscarded := by
  intro s op es hport h hop
  have hdec : decode (s.port ++ ([op] ++ offered es)) = .reserved op (offered es) := by
    rw [hport]
    exact decode_reserved_cons hop _
  have hacc : s.accepted (offered es) = { s with hostIn := es } := by
    rw [accepted_offered (bs := [op]) h, ← hport]
  rw [step_presents s [op] es (List.cons_ne_nil _ _) h]
  simp only [hdec, hacc]

/-- Settles O20: the first part lacks the command's last bytes, so it is held; the second part completes it, like
the two parts at once. -/
theorem splitCommandIsHeldThenRuns : Obligations.SplitCommandIsHeldThenRuns := by
  intro s i p q es hwf henc hq hport
  have hdec : decode (p ++ q) = .command i [] := by
    rw [← henc]
    simpa using decode_encode_append hwf []
  have hstate : { s with port := [], hostIn := es } = { s with hostIn := es } := by rw [← hport]
  refine ⟨?_, ?_, ?_⟩
  · have hheld : decode (s.port ++ p) = .incomplete := by
      rw [hport]
      exact decode_eq_incomplete_of_append hdec hq
    rw [step_of_decode_incomplete (s := { s with hostIn := presents p }) rfl hheld]
    simp [hport]
  · rw [step_of_decode_command (s := { s with port := p, hostIn := presents q ++ es }) rfl hq hdec]
    exact congrArg (exec i) hstate
  · rw [← henc]
    exact step_encode hwf hport es

/-- Settles O21, by induction on the number of steps: each waits in the same state. -/
theorem incompleteCommandWaitsForEver : Obligations.IncompleteCommandWaitsForEver := by
  intro k s hin hdec
  have hstep : step s = .next s := by
    rw [step_of_decode_incomplete (bs := []) hin (by rwa [List.append_nil]), List.append_nil, ← hin]
  induction k with
  | zero => rfl
  | succ k ih => rw [run_succ_of_next hstep, ih]

/-- Settles O23: the placed bytes are the front command of the table word, and nothing else stands in the port. -/
theorem fetchedWordIsExecutedNext : Obligations.FetchedWordIsExecutedNext := by
  intro s nbits w i h
  obtain ⟨rest, hword⟩ := exists_decode_of_decodeTableWord h
  have hfront : decode (frontCommand (tableBytes nbits w)) = .command i [] := decode_frontCommand hword
  have hne : frontCommand (tableBytes nbits w) ≠ [] := by
    intro hnil
    rw [hnil] at hfront
    cases hfront
  exact step_of_decode_command (State.withFetchWord_hostIn s nbits w) hne hfront

/-! ### Operands and character codes (30_encoding.md R75, R78 to R81) -/

/-- Settles O15: the decoder reads bit 0 of the flags byte alone, and the encoder writes the other bits 0. -/
theorem renderFormatIgnoresReservedBits : Obligations.RenderFormatIgnoresReservedBits :=
  ⟨decode_renderInt, fun _ => ⟨rfl, rfl⟩⟩

theorem joinLE_toNat (lo hi : Byte) : (joinLE lo hi).toNat = hi.toNat * 256 + lo.toNat := by
  rw [joinLE, BitVec.toNat_append, ← Nat.shiftLeft_add_eq_or_of_lt lo.isLt, Nat.shiftLeft_eq]

/-- Settles O16: the sign of the value is the top bit of the high byte. -/
theorem operandsAreLittleEndian : Obligations.OperandsAreLittleEndian := by
  refine ⟨fun lo hi => ⟨joinLE_toNat lo hi, ?_⟩, by decide, by decide, by decide⟩
  have hlo := lo.isLt
  rw [valueOf, BitVec.toInt_eq_toNat_cond, joinLE_toNat]
  by_cases hsign : hi.toNat < 128
  · rw [if_pos hsign, if_pos (by omega)]
    omega
  · rw [if_neg hsign, if_neg (by omega)]
    omega

/-- Settles O24, over the 256 character codes. -/
theorem characterTable : Obligations.CharacterTable := by
  refine ⟨?digits, ?letters, rfl, rfl, rfl, rfl, ?others⟩
  case digits => decide
  case letters => decide
  case others => decide

end Sys2Proof.Machine
end

section
/-! Proofs of the statements about the glyph table and the configuration (40_glyph_table.md). First what an operation
does to the configuration, and what a lookup answers; then the statements. -/

namespace Sys2Proof.Machine

/-! ### The configuration (40_glyph_table.md R104) -/

/-- No operation writes the configuration. -/
theorem exec_cfg {i : Instr} {s t : State} (h : exec i s = .next t) : t.cfg = s.cfg := by
  rcases exec_cases h with ⟨db, scan, rfl, -, -⟩ | ⟨-, slot, ph, -, -, -, rfl⟩ | ⟨res, rfl⟩ | ⟨v, -, -, rfl⟩
  · rfl
  · exact State.afterTick_cfg s ph
  · rfl
  · rfl

/-- Settles O8: a reset, the acceptance of a command and waiting each keep the configuration, and so does the operation
a command then executes. -/
theorem noStepChangesTheConfiguration : Obligations.NoStepChangesTheConfiguration := by
  intro s t h
  rcases step_cases s with ⟨es, -, he⟩ | ⟨i, rest, -, he⟩ | ⟨op, rest, -, he⟩ | ⟨-, he⟩
  · rw [he] at h; cases h
    exact State.takeReset_cfg s es
  · rw [he] at h
    exact (exec_cfg h).trans (State.accepted_cfg s rest)
  · rw [he] at h; cases h
    exact State.accepted_cfg s rest
  · rw [he] at h; cases h
    exact State.awaitRest_cfg s

/-- Settles O2, condition by condition over the 18 glyphs; the decimal point is line 1. -/
theorem defaultConfigurationIsAdmissible : Obligations.DefaultConfigurationIsAdmissible := by
  refine ⟨?segmentLines, ⟨1, rfl⟩, ?pointUnused, ?distinct, ?nonzero⟩
  case segmentLines => decide
  case pointUnused => decide
  case distinct => decide
  case nonzero => decide

/-! ### The glyph table (40_glyph_table.md R100 to R102) -/

/-- A lookup inside the table reads the three ROM entries. -/
theorem lookup_of_toNat_eq (cfg : Config) {g : GlyphNum} {k : Fin 18} (h : g.toNat = k.val) :
    lookup cfg g = some ⟨cfg.romA[k], cfg.romB[k], cfg.romC[k]⟩ := by
  rw [lookup, dif_pos (h ▸ k.isLt)]
  simp only [h, Fin.getElem_fin]

/-- A lookup outside the table answers nothing, for every configuration. -/
theorem lookup_eq_none (cfg : Config) {g : GlyphNum} (h : glyphCount ≤ g.toNat) : lookup cfg g = none :=
  dif_neg (Nat.not_lt.mpr h)

/-- Settles O35: an index below 18 fits the 6 bits of a glyph number, and the example is entry 5 of the default ROMs. -/
theorem lookupIsTheGlyphTable : Obligations.LookupIsTheGlyphTable := by
  refine ⟨fun cfg g => lookup_of_toNat_eq cfg ?_, fun cfg g h => lookup_eq_none cfg h, ?_⟩
  · have hg : g.val < 2 ^ 6 := g.isLt.trans (by decide)
    rw [BitVec.toNat_ofNat, Nat.mod_eq_of_lt hg]
  · rw [lookup_of_toNat_eq defaultConfig (k := 5) (by decide)]
    rfl

/-- Settles O40: SCAN names a slot, so a tick has two ways to end, and it completes only on a legal slot. -/
theorem invalidGlyphFaults : Obligations.InvalidGlyphFaults := by
  intro s slot hslot hillegal
  rcases execScanTick_cases s with ⟨hnone, -⟩ | ⟨_, -, -, he⟩ | ⟨slot', _, hslot', hlegal, -⟩
  · rw [hslot] at hnone; cases hnone
  · exact he
  · rw [hslot] at hslot'; cases hslot'
    exact absurd hlegal hillegal

end Sys2Proof.Machine
end

section
/-! Proofs of the statements about the formatter (41_formatter.md). First `parse_text`: what one more character does to
the scan; then the decimal points; then `render_int`: its three ways to end, and the digits of a number. -/

namespace Sys2Proof.Machine

/-! ### The scan of a text (41_formatter.md R110 to R116) -/

/-- `parse_text` writes the buffer of its text, and SCAN. -/
theorem exec_parseText_of_textBuffer {text : List Byte} {db : Triple Slot} (h : textBuffer text = db) (s : State) :
    exec (.parseText text) s = .next { s with db := db, scan := 0 } := by
  rw [← h]
  rfl

/-- What a character does to the slots produced does not depend on what follows it: it ends the scan, or the scan goes
on from other slots. -/
theorem scanText_cons_cases (ch : Byte) (tmp : List Slot) :
    (∀ rest, scanText (ch :: rest) tmp = tmp) ∨ ∃ tmp', ∀ rest, scanText (ch :: rest) tmp = scanText rest tmp' := by
  by_cases hfull : tmp.length = 3
  · exact .inl fun _ => scanText_of_full _ hfull
  by_cases hterm : ch = terminatorCode
  · exact .inl fun _ => by rw [scanText, if_neg hfull, if_pos hterm]
  by_cases hdot : ch = dotCode
  · exact .inr ⟨markDot tmp, fun rest => hdot ▸ scanText_dot hfull rest⟩
  cases hg : glyphOf ch with
  | some g => exact .inr ⟨_, scanText_glyph hfull hterm hdot hg⟩
  | none => exact .inr ⟨tmp, fun rest => scanText_skipped ⟨hterm, hdot, hg⟩ rest tmp⟩

/-- Two texts that scan alike from any slots still do so after a common first part. -/
theorem scanText_append_congr {p q : List Byte} (h : ∀ tmp, scanText p tmp = scanText q tmp) (pre : List Byte)
    (tmp : List Slot) : scanText (pre ++ p) tmp = scanText (pre ++ q) tmp := by
  induction pre generalizing tmp with
  | nil => exact h tmp
  | cons ch pre ih =>
    rw [List.cons_append, List.cons_append]
    rcases scanText_cons_cases ch tmp with hend | ⟨tmp', hgo⟩
    · rw [hend, hend]
    · rw [hgo, hgo, ih]

/-- Once three slots are produced the rest of the text changes nothing (41_formatter.md R112). -/
theorem scanText_append_of_full {pre : List Byte} {tmp : List Slot} (h : (scanText pre tmp).length = 3)
    (post : List Byte) : scanText (pre ++ post) tmp = scanText pre tmp := by
  induction pre generalizing tmp with
  | nil => exact scanText_of_full post h
  | cons ch pre ih =>
    rw [List.cons_append]
    rcases scanText_cons_cases ch tmp with hend | ⟨tmp', hgo⟩
    · rw [hend, hend]
    · rw [hgo] at h
      rw [hgo, hgo, ih h]

/-- A skipped character anywhere in a text changes nothing (41_formatter.md R114). -/
theorem scanText_delete_skipped {ch : Byte} (h : Skipped ch) (pre post : List Byte) :
    scanText (pre ++ ch :: post) [] = scanText (pre ++ post) [] :=
  scanText_append_congr (scanText_skipped h post) pre []

/-- A newer slot enters the right-aligned buffer on the right. -/
theorem rightAlign_cons (slot : Slot) (tmp : List Slot) :
    rightAlign (slot :: tmp) = ⟨(rightAlign tmp).s1, (rightAlign tmp).s2, slot⟩ := by
  simp [rightAlign]

/-- A dot sets the point of the rightmost slot, blank if there is none yet (41_formatter.md R113). -/
theorem rightAlign_markDot (tmp : List Slot) :
    rightAlign (markDot tmp) = { rightAlign tmp with s2 := (rightAlign tmp).s2.withPoint } := by
  cases tmp <;> rfl

/-- A character with a glyph is not the terminator. -/
theorem ne_terminatorCode_of_glyphOf {ch : Byte} {g : GlyphNum} (h : glyphOf ch = some g) : ch ≠ terminatorCode := by
  have hnone : glyphOf terminatorCode = none := by decide
  rintro rfl
  rw [hnone] at h
  cases h

/-- Settles O25: the buffer is that of the text. -/
theorem parseTextRewritesTheBuffer : Obligations.ParseTextRewritesTheBuffer :=
  fun text => ⟨textBuffer text, textBuffer_legal text, exec_parseText_of_textBuffer rfl⟩

/-- Settles O26: the scan is the same with and without the skipped character. -/
theorem parseTextSkipsOtherCharacters : Obligations.ParseTextSkipsOtherCharacters := by
  refine ⟨fun pre post ch s h => ?_, fun pre post ch h => ?_, fun s => ⟨?_, ?_, ?_⟩⟩
  · exact exec_parseText_of_textBuffer (congrArg rightAlign (scanText_delete_skipped h pre post)) s
  · exact congrArg List.length (scanText_delete_skipped h pre post)
  · exact exec_parseText_of_textBuffer (by decide) s
  · exact exec_parseText_of_textBuffer (by decide) s
  · exact exec_parseText_of_textBuffer (by decide) s

/-- Settles O27: the scan keeps at most three slots, and with three it is over. -/
theorem parseTextStopsAfterThreeSlots : Obligations.ParseTextStopsAfterThreeSlots := by
  refine ⟨fun text => ?_, fun pre post s h => ?_, by decide, by decide, fun s => ⟨?_, ?_⟩⟩
  · exact (scanText_keeps text [] (by simp) (by simp)).1
  · exact exec_parseText_of_textBuffer (congrArg rightAlign (scanText_append_of_full h post)) s
  · exact exec_parseText_of_textBuffer (by decide) s
  · exact exec_parseText_of_textBuffer (by decide) s

/-- Settles O28: the scan of the longer text is one more character after the scan of `pre`. -/
theorem parseTextTakesOneMoreCharacter : Obligations.ParseTextTakesOneMoreCharacter := by
  intro pre s t hwf hlt ht
  cases ht
  have hfull : (scanText pre []).length ≠ 3 := Nat.ne_of_lt hlt
  refine ⟨fun ch g hdot hg => ?_, ?_⟩
  · have hscan : scanText (pre ++ [ch]) [] = ⟨g, false⟩ :: scanText pre [] := by
      rw [scanText_append pre [ch] [] hwf, scanText_glyph hfull (ne_terminatorCode_of_glyphOf hg) hdot hg, scanText]
    refine ⟨congrArg List.length hscan, exec_parseText_of_textBuffer ?_ s⟩
    rw [textBuffer, hscan, rightAlign_cons]
    rfl
  · have hscan : scanText (pre ++ [dotCode]) [] = markDot (scanText pre []) := by
      rw [scanText_append pre [dotCode] [] hwf, scanText_dot hfull, scanText]
    refine ⟨(congrArg List.length hscan).trans (markDot_length _), exec_parseText_of_textBuffer ?_ s⟩
    exact (congrArg rightAlign hscan).trans (rightAlign_markDot _)

/-- Settles O29, text by text. -/
theorem parseTextExamples : Obligations.ParseTextExamples := by
  intro p hp s
  have hbuffer : packedBuffer (textBuffer p.1) = p.2 := by
    revert p
    decide
  exact ⟨_, exec_parseText_of_textBuffer rfl s, hbuffer, rfl⟩

/-! ### Decimal points (41_formatter.md R126, R127) -/

/-- The slots after a point was set: every glyph is kept, and the points set are the old ones and the new one. -/
theorem get?_setPoint (db : Triple Slot) (i k : Nat) :
    (setPoint db i).get? k = (db.get? k).map fun slot => ⟨slot.glyph, slot.dp || decide (k = i)⟩ := by
  rw [setPoint, Triple.get?_modify]
  have hpoint : Slot.withPoint = fun slot => ⟨slot.glyph, true⟩ := rfl
  by_cases h : k = i
  · simp [h, hpoint]
  · simp [h]

theorem setPoint_setPoint (db : Triple Slot) (i : Nat) : setPoint (setPoint db i) i = setPoint db i := by
  match i with
  | 0 | 1 | 2 | _ + 3 => rfl

/-- Only the formatter's operations write DB (10_state.md R33). -/
theorem exec_db_of_not_formatter {i : Instr} {s t : State} (htext : ∀ text, i ≠ .parseText text)
    (hint : ∀ v m, i ≠ .renderInt v m) (hpoint : ∀ p, i ≠ .setDecimalPoint p) (h : exec i s = .next t) :
    t.db = s.db := by
  have hw := exec_writesOnlyItsRegisters h
  cases i with
  | parseText text => exact absurd rfl (htext text)
  | renderInt v m => exact absurd rfl (hint v m)
  | setDecimalPoint p => exact absurd rfl (hpoint p)
  | scanTick => obtain ⟨_, _, _, rfl⟩ := hw; rfl
  | medianOfThree a b c => obtain ⟨_, rfl⟩ := hw; rfl
  | rollingStore v => obtain ⟨_, _, rfl⟩ := hw; rfl
  | rollingAverage => obtain ⟨_, rfl⟩ := hw; rfl

/-- Settles O33: the slots read after the point was set. -/
theorem setDecimalPointSetsOnePoint : Obligations.SetDecimalPointSetsOnePoint := by
  intro p s
  refine ⟨setPoint s.db p.toNat, exec_setDecimalPoint_eq p s, fun k slot hk => ?_, fun hp => ?_⟩
  · rw [get?_setPoint, hk]
    by_cases h : k = p.toNat <;> simp [h]
  · rw [exec_setDecimalPoint_eq, setPoint, Triple.modify_of_gt _ _ hp]

/-- Settles O34: a point that is set stays set when another is, and the operations outside the formatter keep DB. -/
theorem decimalPointsAccumulate : Obligations.DecimalPointsAccumulate := by
  refine ⟨fun p s t ht => ?_, fun p q s t w k slot hk hslot ht hw => ?_, fun i s t k slot htext hint ht hslot => ?_⟩
  · rw [exec_setDecimalPoint_eq] at ht
    cases ht
    rw [exec_setDecimalPoint_eq]
    simp only [setPoint_setPoint]
  · rw [exec_setDecimalPoint_eq] at ht hw
    cases ht
    cases hw
    simp only [get?_setPoint, Option.map_map, Option.map_eq_some_iff] at hslot
    obtain ⟨old, -, rfl⟩ := hslot
    rcases hk with rfl | rfl <;> simp
  · by_cases hpoint : ∃ p, i = .setDecimalPoint p
    · obtain ⟨p, rfl⟩ := hpoint
      rw [exec_setDecimalPoint_eq] at ht
      cases ht
      refine ⟨⟨slot.glyph, slot.dp || decide (k = p.toNat)⟩, ?_, rfl, fun hdp => by simp [hdp]⟩
      rw [get?_setPoint, hslot, Option.map_some]
    · rw [← exec_db_of_not_formatter htext hint (not_exists.mp hpoint) ht] at hslot
      exact ⟨slot, hslot, rfl, id⟩

/-! ### The ways `render_int` ends (41_formatter.md R118, R120, R125) -/

/-- The meter step leaves a value up to 999 alone. -/
theorem meterScale_of_le {x : Int} (h : x ≤ 999) (m : Bool) : meterScale x m = (x, 0) := by
  simp [meterScale, Int.not_lt.mpr h]

/-- The meter step above 999. -/
theorem meterScale_of_gt {x : Int} (h : 999 < x) : meterScale x true = (x / 10, 1) := by
  simp [meterScale, h]

/-- Out of range after the meter step, `render_int` is `parse_text("--E")`. -/
theorem exec_renderInt_error {v : Value} {m : Bool} {shown : Int} {dpPos : Nat}
    (hscale : meterScale v.toInt m = (shown, dpPos)) (h : shown < -99 ∨ 999 < shown) (s : State) :
    exec (.renderInt v m) s = exec (.parseText errorText) s := by
  change Host.Outcome.next _ = Host.Outcome.next _
  rw [State.showInt, valueOf, hscale]
  simp only [if_pos h]

/-- In range after the meter step, and not zero, `render_int` shows the number and resets SCAN. -/
theorem exec_renderInt_number {v : Value} {m : Bool} {shown : Int} {dpPos : Nat}
    (hscale : meterScale v.toInt m = (shown, dpPos)) (hlo : -99 ≤ shown) (hhi : shown ≤ 999) (hne : shown ≠ 0)
    (s : State) : exec (.renderInt v m) s = .next { s with db := numberBuffer shown dpPos m, scan := 0 } := by
  have hrange : ¬ (shown < -99 ∨ 999 < shown) := by omega
  change Host.Outcome.next _ = _
  rw [State.showInt, valueOf, hscale]
  simp only [if_neg hrange, if_neg hne]

/-- Zero is shown without a point, and SCAN is kept. -/
theorem exec_renderInt_zero {v : Value} (h : v.toInt = 0) (m : Bool) (s : State) :
    exec (.renderInt v m) s = .next { s with db := setGlyph (initialBuffer m) 2 (digitGlyph 0) } := by
  change Host.Outcome.next (s.showInt v.toInt m) = _
  rw [h, State.showInt, meterScale_of_le (by decide)]
  rfl

/-- `--E` on the display (41_formatter.md R118). -/
theorem exec_parseText_errorText (s : State) :
    exec (.parseText errorText) s = .next { s with db := ⟨⟨16, false⟩, ⟨16, false⟩, ⟨14, false⟩⟩, scan := 0 } :=
  exec_parseText_of_textBuffer (by decide) s

/-! ### The digits and the sign of a number (41_formatter.md R121 to R123) -/

/-- The slot that stands left of a number: blank, or a zero in meter mode (41_formatter.md R119). -/
def padSlot (m : Bool) : Slot := ⟨if m then digitGlyph 0 else blankGlyph, false⟩

/-- The slot left of the digits: the minus sign of a negative number, else padding (41_formatter.md R121). -/
def signSlot (neg m : Bool) : Slot := if neg then ⟨minusGlyph, false⟩ else padSlot m

/-- A digit without a point. -/
def digitSlot (d : Nat) : Slot := ⟨digitGlyph d, false⟩

/-- The buffer of a number before its point is set. -/
def signedDigits (neg : Bool) (mag : Nat) (m : Bool) : Triple Slot :=
  placeSign neg (placeDigits 3 mag (initialBuffer m))

/-- In meter mode, and only there, a number gets a point. -/
theorem numberBuffer_eq_signedDigits (x : Int) (dpPos : Nat) (m : Bool) :
    numberBuffer x dpPos m =
      if m then setPoint (signedDigits (decide (x < 0)) x.natAbs m) dpPos
      else signedDigits (decide (x < 0)) x.natAbs m := rfl

theorem signedDigits_of_one_digit {n : Nat} (h : n < 10) (neg m : Bool) :
    signedDigits neg n m = ⟨padSlot m, signSlot neg m, digitSlot (n % 10)⟩ := by
  have hstop : n / 10 = 0 := by omega
  rw [signedDigits, placeDigits]
  simp only [if_pos hstop]
  cases neg <;> rfl

theorem signedDigits_of_two_digits {n : Nat} (hlo : 10 ≤ n) (hhi : n < 100) (neg m : Bool) :
    signedDigits neg n m = ⟨signSlot neg m, digitSlot (n / 10 % 10), digitSlot (n % 10)⟩ := by
  have hgo : n / 10 ≠ 0 := by omega
  have hstop : n / 10 / 10 = 0 := by omega
  rw [signedDigits, placeDigits, placeDigits]
  simp only [if_neg hgo, if_pos hstop]
  cases neg <;> rfl

/-- Three digits fill the buffer: there is no room for padding or a sign. -/
theorem signedDigits_of_three_digits {n : Nat} (hlo : 100 ≤ n) (hhi : n < 1000) (neg m : Bool) :
    signedDigits neg n m = ⟨digitSlot (n / 100), digitSlot (n / 10 % 10), digitSlot (n % 10)⟩ := by
  have hgo : n / 10 ≠ 0 := by omega
  have hgo' : n / 10 / 10 ≠ 0 := by omega
  have hstop : n / 10 / 10 / 10 = 0 := by omega
  have hdigit : n / 100 = n / 10 / 10 % 10 := by omega
  rw [signedDigits, placeDigits, placeDigits, placeDigits, hdigit]
  simp only [if_neg hgo, if_neg hgo', if_pos hstop]
  cases neg <;> rfl

/-- A nonzero value in -99..999 shows its sign and digits in both modes, in meter mode with the point of slot 0. -/
theorem exec_renderInt_unscaled {v : Value} {neg : Bool} {n : Nat} {row : Bool → Triple Slot} (hlo : -99 ≤ v.toInt)
    (hhi : v.toInt ≤ 999) (hne : v.toInt ≠ 0) (hneg : decide (v.toInt < 0) = neg) (hn : v.toInt.natAbs = n)
    (hrow : ∀ m, signedDigits neg n m = row m) (s : State) :
    exec (.renderInt v false) s = .next { s with db := row false, scan := 0 } ∧
      exec (.renderInt v true) s = .next { s with db := setPoint (row true) 0, scan := 0 } := by
  have hbuffer : ∀ m, numberBuffer v.toInt 0 m = if m then setPoint (row m) 0 else row m := by
    intro m
    rw [numberBuffer_eq_signedDigits, hneg, hn, hrow]
  constructor
  · rw [exec_renderInt_number (meterScale_of_le hhi false) hlo hhi hne, hbuffer]; rfl
  · rw [exec_renderInt_number (meterScale_of_le hhi true) hlo hhi hne, hbuffer]; rfl

/-- In meter mode 1000..9999 shows the three digits of `value div 10`, with the point of slot 1. -/
theorem exec_renderInt_scaled {v : Value} {n : Nat} (hn : v.toInt / 10 = n) (hlo : 100 ≤ n) (hhi : n ≤ 999) (s : State) :
    exec (.renderInt v true) s = .next { s with
      db := setPoint ⟨digitSlot (n / 100), digitSlot (n / 10 % 10), digitSlot (n % 10)⟩ 1, scan := 0 } := by
  have hscale : meterScale v.toInt true = ((n : Int), 1) := by rw [meterScale_of_gt (by omega), hn]
  rw [exec_renderInt_number hscale (by omega) (by omega) (by omega), numberBuffer_eq_signedDigits, Int.natAbs_natCast,
    signedDigits_of_three_digits hlo (by omega)]
  rfl

/-- A digit's glyph, from the digit as an integer. -/
theorem ofInt_natCast_eq_digitGlyph (d : Nat) : BitVec.ofInt 6 (d : Int) = digitGlyph d := BitVec.ofInt_natCast 6 d

/-- Settles O30, row by row, with the magnitude shown as a natural number: the rows out of range are `--E`, the others
its one, two or three digits. -/
theorem renderIntResultTable : Obligations.RenderIntResultTable := by
  rintro v s _ _ _ _ mag rfl hmag rfl rfl rfl
  obtain ⟨n, rfl⟩ : ∃ n : Nat, mag = n := Int.eq_ofNat_of_zero_le (by split at hmag <;> omega)
  have hh : BitVec.ofInt 6 ((n : Int) / 100) = digitGlyph (n / 100) := ofInt_natCast_eq_digitGlyph (n / 100)
  have ht : BitVec.ofInt 6 ((n : Int) / 10 % 10) = digitGlyph (n / 10 % 10) := ofInt_natCast_eq_digitGlyph (n / 10 % 10)
  have hu : BitVec.ofInt 6 ((n : Int) % 10) = digitGlyph (n % 10) := ofInt_natCast_eq_digitGlyph (n % 10)
  rw [hh, ht, hu]
  refine ⟨fun m h => ?tooSmall, fun hlo hhi => ?minusTwoDigits, fun hlo hhi => ?minusOneDigit, fun h => ?zero,
    fun hlo hhi => ?oneDigit, fun hlo hhi => ?twoDigits, fun hlo hhi => ?threeDigits, fun h => ?tooLarge,
    fun hlo hhi => ?meterStep, fun h => ?tooLargeForMeter⟩
  case tooSmall =>
    rw [exec_renderInt_error (meterScale_of_le (by omega) m) (.inl h), exec_parseText_errorText]
  case minusTwoDigits =>
    exact exec_renderInt_unscaled hlo (by omega) (by omega) (decide_eq_true (by omega)) (n := n) (by omega)
      (signedDigits_of_two_digits (by omega) (by omega) true) s
  case minusOneDigit =>
    exact exec_renderInt_unscaled (by omega) (by omega) (by omega) (decide_eq_true (by omega)) (n := n) (by omega)
      (signedDigits_of_one_digit (by omega) true) s
  case zero => exact ⟨exec_renderInt_zero h false s, exec_renderInt_zero h true s⟩
  case oneDigit =>
    exact exec_renderInt_unscaled (by omega) (by omega) (by omega) (decide_eq_false (by omega)) (n := n) (by omega)
      (signedDigits_of_one_digit (by omega) false) s
  case twoDigits =>
    exact exec_renderInt_unscaled (by omega) (by omega) (by omega) (decide_eq_false (by omega)) (n := n) (by omega)
      (signedDigits_of_two_digits (by omega) (by omega) false) s
  case threeDigits =>
    exact exec_renderInt_unscaled (by omega) hhi (by omega) (decide_eq_false (by omega)) (n := n) (by omega)
      (signedDigits_of_three_digits (by omega) (by omega) false) s
  case tooLarge =>
    rw [exec_renderInt_error (m := false) rfl (.inr h), exec_parseText_errorText]
  case meterStep => exact exec_renderInt_scaled (n := n) (by omega) (by omega) (by omega) s
  case tooLargeForMeter =>
    rw [exec_renderInt_error (meterScale_of_gt (by omega)) (.inr (by omega)), exec_parseText_errorText]

/-- Settles O31: the range check is on the value after the meter step, and a value of three digits shows the same digits
in both modes. -/
theorem renderIntRangeCheckAndMeterStep : Obligations.RenderIntRangeCheckAndMeterStep := by
  refine ⟨fun v s => ⟨fun h => ?_, fun h => ?_⟩, exec_parseText_errorText, fun v s t hlo hhi ht => ?_⟩
  · exact exec_renderInt_error (m := false) rfl h s
  · rcases h with h | h
    · exact exec_renderInt_error (meterScale_of_le (by omega) true) (.inl h) s
    · exact exec_renderInt_error (meterScale_of_gt (by omega)) (.inr (by omega)) s
  · obtain ⟨n, hn⟩ : ∃ n : Nat, v.toInt / 10 = n := Int.eq_ofNat_of_zero_le (by omega)
    have hdiv : (BitVec.ofInt 16 (v.toInt / 10)).toInt = n := by
      rw [hn]
      exact BitVec.toInt_ofInt_eq_self (by decide) (by omega) (by omega)
    obtain ⟨hplain, -⟩ := exec_renderInt_unscaled (v := BitVec.ofInt 16 (v.toInt / 10)) (by omega) (by omega) (by omega)
      (decide_eq_false (by omega)) (n := n) (by omega) (signedDigits_of_three_digits (by omega) (by omega) false) s
    rw [hplain] at ht
    cases ht
    exact exec_renderInt_scaled hn (by omega) (by omega) s

end Sys2Proof.Machine
end

section
/-! Proofs of the statements about the scanner (42_scanner.md). First a tick on a legal slot and its steps 2 and 3 on one
glyph, then the lines it leaves, then three ticks in a row. -/

namespace Sys2Proof.Machine

/-! ### The steps of one tick (42_scanner.md R142 to R147) -/

/-- An index that names a slot is at most 2 (20_memory.md R51). -/
theorem Triple.le_of_get?_eq_some {α : Type} {t : Triple α} {k : Nat} {v : α} (h : t.get? k = some v) : k ≤ 2 := by
  have hsome : t.get? k ≠ none := by rw [h]; exact Option.some_ne_none v
  exact Nat.le_of_not_lt fun hk => hsome ((t.get?_eq_none_iff k).mpr hk)

/-- A tick on a legal slot completes, with some phases (42_scanner.md R148). -/
theorem exec_scanTick_of_legal {s : State} {slot : Slot} (hslot : s.db.get? s.scan.toNat = some slot)
    (hlegal : slot.Legal) :
    ∃ ph, tickPhases s.cfg slot s.scan s.out = some ph ∧ exec .scanTick s = .next (s.afterTick ph) := by
  obtain ⟨ph, hph⟩ := Option.isSome_iff_exists.mp ((tickPhases_isSome_iff s.cfg slot s.scan s.out).mpr hlegal)
  refine ⟨ph, hph, ?_⟩
  change execScanTick s = _
  simp only [execScanTick, hslot, hph]

/-- Step 3 on a blank slot leaves the outputs alone (42_scanner.md R144). -/
theorem showGlyph_blankGlyph (cfg : Config) (o : Outputs) : o.showGlyph cfg blankGlyph = some o := if_pos rfl

/-- No glyph of the table is the blank sentinel (10_state.md R22). -/
theorem ofNat_ne_blankGlyph : ∀ g : Fin 18, (BitVec.ofNat 6 g.val : GlyphNum) ≠ blankGlyph := by decide

/-- Step 3 on a glyph of the table clears the lines of its three ROM entries (42_scanner.md R144). -/
theorem showGlyph_ofNat (cfg : Config) (g : Fin 18) (o : Outputs) :
    o.showGlyph cfg (BitVec.ofNat 6 g.val) = some (o.light ⟨cfg.romA[g], cfg.romB[g], cfg.romC[g]⟩) := by
  obtain ⟨hlookup, -, -⟩ := lookupIsTheGlyphTable
  rw [Outputs.showGlyph, if_neg (ofNat_ne_blankGlyph g), hlookup cfg g]

/-- Settles O36: the phases are those of `tickPhases`, and SCAN, which names a slot, is 0, 1 or 2. -/
theorem scanTickFollowsItsSixSteps : Obligations.ScanTickFollowsItsSixSteps := by
  intro s slot hslot hlegal
  obtain ⟨ph, hph, hexec⟩ := exec_scanTick_of_legal hslot hlegal
  obtain ⟨h1, h2, h3, h4, h5⟩ := tickPhases_eq_some hph
  have hscan : s.scan.toNat ≤ 2 := Triple.le_of_get?_eq_some hslot
  refine ⟨ph, ?next, h1, h2, ?blank, ?glyph, ?pointAnode, ?pointLines, ?select⟩
  case next => rw [hexec, State.afterTick, advance_eq _ hscan]
  case blank =>
    intro hg
    rw [hg] at h3
    exact (Option.some.inj ((showGlyph_blankGlyph s.cfg ph.p2).symm.trans h3)).symm
  case glyph =>
    intro g hg
    rw [hg, showGlyph_ofNat] at h3
    exact (Option.some.inj h3).symm
  case pointAnode => rw [h4, Outputs.showPoint, Outputs.anode_modify]
  case pointLines => intro x; rw [h4, Outputs.showPoint, Outputs.lines_modify, ite_not]
  case select => rw [h5, Outputs.select, select_eq _ hscan]

/-! ### The lines after a tick (42_scanner.md R149 (e)) -/

section
variable {cfg : Config} {slot : Slot} {digit : Counter} {o : Outputs} {ph : TickPhases}

/-- After step 2 the segment lines of a group are high. -/
theorem tickPhases_p2_lines (h : tickPhases cfg slot digit o = some ph) (x : SegGroup) :
    ph.p2.lines x = o.lines x ||| cfg.blankOf x := by
  obtain ⟨h1, h2, -⟩ := tickPhases_eq_some h
  rw [h2, Outputs.lines_allOff, h1, Outputs.lines_deactivate]

/-- A tick leaves the complement of the decimal point on its line. -/
theorem tickPhases_point_line (h : tickPhases cfg slot digit o = some ph) {x : SegGroup} {k : Nat} (hk : k < 8)
    (hpoint : (cfg.pointOf x).getLsbD k = true) : (ph.p5.lines x).getLsbD k = !slot.dp := by
  obtain ⟨-, -, h5⟩ := tickPhases_lines h x
  rw [h5]
  cases slot.dp
  · rw [if_neg Bool.false_ne_true, BitVec.getLsbD_or, hpoint]
    exact Bool.or_true _
  · rw [if_pos rfl, BitVec.getLsbD_and, BitVec.getLsbD_not, decide_eq_true hk, hpoint]
    exact Bool.and_false _

/-- Steps 4 and 5 change no line but the decimal point's. -/
theorem tickPhases_line_of_not_point (h : tickPhases cfg slot digit o = some ph) {x : SegGroup} {k : Nat} (hk : k < 8)
    (hpoint : (cfg.pointOf x).getLsbD k = false) : (ph.p5.lines x).getLsbD k = (ph.p3.lines x).getLsbD k := by
  obtain ⟨-, -, h5⟩ := tickPhases_lines h x
  rw [h5]
  cases slot.dp
  · rw [if_neg Bool.false_ne_true, BitVec.getLsbD_or, hpoint, Bool.or_false]
  · rw [if_pos rfl, BitVec.getLsbD_and, BitVec.getLsbD_not, decide_eq_true hk, hpoint]
    exact Bool.and_true _

/-- A blank slot leaves a segment line high. -/
theorem tickPhases_segment_line_of_blank (h : tickPhases cfg slot digit o = some ph) (hg : slot.glyph = blankGlyph)
    {x : SegGroup} {k : Nat} (hblank : (cfg.blankOf x).getLsbD k = true) : (ph.p3.lines x).getLsbD k = true := by
  obtain ⟨-, -, h3, -⟩ := tickPhases_eq_some h
  rw [hg, showGlyph_blankGlyph] at h3
  rw [← Option.some.inj h3, tickPhases_p2_lines h, BitVec.getLsbD_or, hblank, Bool.or_true]

/-- A glyph of the table leaves the complement of its pattern bit on a segment line. -/
theorem tickPhases_segment_line_of_glyph (h : tickPhases cfg slot digit o = some ph) {g : Fin 18}
    (hg : slot.glyph = BitVec.ofNat 6 g.val) {x : SegGroup} {k : Nat} (hk : k < 8)
    (hblank : (cfg.blankOf x).getLsbD k = true) : (ph.p3.lines x).getLsbD k = !((cfg.romOf x)[g]).getLsbD k := by
  obtain ⟨-, -, h3, -⟩ := tickPhases_eq_some h
  rw [hg, showGlyph_ofNat] at h3
  have hrom : Pattern.lines ⟨cfg.romA[g], cfg.romB[g], cfg.romC[g]⟩ x = (cfg.romOf x)[g] := by cases x <;> rfl
  rw [← Option.some.inj h3, Outputs.lines_light, tickPhases_p2_lines h, hrom]
  simp [hk, hblank]

end

/-- Two states with the same unused lines agree on each of them. -/
theorem line_eq_of_unusedLines_eq {s t : State} {x : SegGroup} (hcfg : t.cfg = s.cfg)
    (h : unusedLines t x = unusedLines s x) {k : Nat} (hk : k < 8) (hused : (s.cfg.usedLines x).getLsbD k = false) :
    (t.out.lines x).getLsbD k = (s.out.lines x).getLsbD k := by
  have hbit := congrArg (·.getLsbD k) h
  simpa only [unusedLines, hcfg, BitVec.getLsbD_and, BitVec.getLsbD_not, hused, decide_eq_true hk, Bool.not_false,
    Bool.and_true] using hbit

/-- Settles O37, line by line: the decimal point from step 4, a segment from step 3, and an unused line from O10. -/
theorem endOfTickShowsTheSlot : Obligations.EndOfTickShowsTheSlot := by
  intro s t slot x k hadm hk hslot hexec
  have hunused : unusedLines t x = unusedLines s x := unusedLinesNeverChange .scanTick s t x hadm hexec
  obtain ⟨slot', ph, hslot', -, hph, rfl⟩ := exec_scanTick_eq_next hexec
  obtain rfl : slot = slot' := Option.some.inj (hslot.symm.trans hslot')
  refine ⟨tickPhases_point_line hph hk, fun hpoint hblank => ⟨fun hg => ?_, fun g hg => ?_⟩, fun hpoint hblank => ?_⟩
  · exact (tickPhases_line_of_not_point hph hk hpoint).trans (tickPhases_segment_line_of_blank hph hg hblank)
  · exact (tickPhases_line_of_not_point hph hk hpoint).trans (tickPhases_segment_line_of_glyph hph hg hk hblank)
  · have hused : (s.cfg.usedLines x).getLsbD k = false := by
      rw [Config.usedLines, BitVec.getLsbD_or, hblank, hpoint, Bool.or_false]
    exact line_eq_of_unusedLines_eq (s.afterTick_cfg ph) hunused hk hused

/-! ### Three ticks (42_scanner.md R149 (d)) -/

/-- A tick from a legal state completes in a legal state, with SCAN advanced and the digit of the old SCAN selected. -/
theorem exec_scanTick_of_state_legal {s : State} (h : s.Legal) :
    ∃ t, exec .scanTick s = .next t ∧ t.Legal ∧ t.scan = advance s.scan ∧ t.out.anode = 1#3 <<< s.scan.toNat := by
  have ⟨hdb, hscan, _⟩ := h
  obtain ⟨slot, hslot⟩ := Option.ne_none_iff_exists'.mp
    (mt (s.db.get?_eq_none_iff s.scan.toNat).mp (Nat.not_lt.mpr hscan))
  obtain ⟨ph, hph, hexec⟩ := exec_scanTick_of_legal hslot (hdb.get? hslot)
  obtain ⟨-, -, -, -, hanode⟩ := tickPhases_anode hph
  exact ⟨s.afterTick ph, hexec, afterTick_legal h hph, rfl, hanode⟩

/-- Three advances come back to the same digit (42_scanner.md R140). -/
theorem advance_advance_advance (x : Counter) (h : x.toNat ≤ 2) : advance (advance (advance x)) = x := by
  revert x
  decide

/-- Among three digits in a row each digit select occurs once. -/
theorem count_select_advance (x : Counter) (h : x.toNat ≤ 2) (d : Anode) (hd : d = 1 ∨ d = 2 ∨ d = 4) :
    [1#3 <<< x.toNat, 1#3 <<< (advance x).toNat, 1#3 <<< (advance (advance x)).toNat].count d = 1 := by
  revert x d
  decide

/-- Settles O38: each of the three ticks starts from a legal state and selects the digit the one before advanced to. -/
theorem threeTicksShowEachDigitOnce : Obligations.ThreeTicksShowEachDigitOnce := by
  intro s hs
  have ⟨_, hscan, _⟩ := hs
  obtain ⟨a, hexeca, ha, hscana, hanodea⟩ := exec_scanTick_of_state_legal hs
  obtain ⟨b, hexecb, hb, hscanb, hanodeb⟩ := exec_scanTick_of_state_legal ha
  obtain ⟨c, hexecc, -, hscanc, hanodec⟩ := exec_scanTick_of_state_legal hb
  rw [hscana] at hscanb hanodeb
  rw [hscanb] at hscanc hanodec
  refine ⟨a, b, c, hexeca, hexecb, hexecc, fun d hd => ?once, ?back, fun hzero => ?order⟩
  case once =>
    rw [hanodea, hanodeb, hanodec]
    exact count_select_advance s.scan hscan d hd
  case back => rw [hscanc, advance_advance_advance s.scan hscan]
  case order =>
    rw [hanodea, hanodeb, hanodec, hzero]
    decide

end Sys2Proof.Machine
end

section
/-! Proofs of the statements about the sample filter (43_sample_filter.md). First the three operations as equations,
then the median by counting the operands on either side of it, the bounds of the average, and three stores in a row. -/

namespace Sys2Proof.Machine

/-! ### The three operations (43_sample_filter.md R161, R164, R166) -/

theorem exec_medianOfThree_eq (a b c : Sample) (s : State) :
    exec (.medianOfThree a b c) s = .next { s with res := median a b c } := rfl

theorem exec_rollingStore_of_wcur_le {s : State} (v : Sample) (h : s.wcur.toNat ≤ 2) :
    exec (.rollingStore v) s = .next { s with swin := s.swin.set s.wcur.toNat v, wcur := advance s.wcur } :=
  if_pos h

theorem exec_rollingAverage_eq (s : State) : exec .rollingAverage s = .next { s with res := average s.swin } := rfl

/-! ### The median (43_sample_filter.md R161 to R163) -/

/-- The median is at most a bound exactly if two operands are. -/
theorem median_le_iff (a b c x : Sample) : median a b c ≤ x ↔ 2 ≤ [a, b, c].countP (· ≤ x) := by
  rw [BitVec.le_def, median_toNat]
  simp only [List.countP_cons, List.countP_nil, decide_eq_true_eq, BitVec.le_def]
  split_ifs <;> omega

/-- The median is at least a bound exactly if two operands are. -/
theorem le_median_iff (a b c x : Sample) : x ≤ median a b c ↔ 2 ≤ [a, b, c].countP (x ≤ ·) := by
  rw [BitVec.le_def, median_toNat]
  simp only [List.countP_cons, List.countP_nil, decide_eq_true_eq, BitVec.le_def]
  split_ifs <;> omega

/-- Counting does not see the order of the operands, so neither does the median. -/
theorem median_eq_of_perm {a b c x y z : Sample} (h : [x, y, z].Perm [a, b, c]) : median x y z = median a b c := by
  have hle : ∀ v, median x y z ≤ v ↔ median a b c ≤ v := fun v => by
    rw [median_le_iff, median_le_iff, h.countP_eq]
  exact BitVec.le_antisymm ((hle _).mpr (BitVec.le_refl _)) ((hle _).mp (BitVec.le_refl _))

/-- An interval that holds two operands holds the median. -/
theorem median_mem_interval {a b c lo hi : Sample} (h : 2 ≤ [a, b, c].countP (fun x => lo ≤ x ∧ x ≤ hi)) :
    lo ≤ median a b c ∧ median a b c ≤ hi := by
  rw [le_median_iff, median_le_iff]
  exact ⟨h.trans (List.countP_mono_left fun x _ hx => decide_eq_true (of_decide_eq_true hx).1),
    h.trans (List.countP_mono_left fun x _ hx => decide_eq_true (of_decide_eq_true hx).2)⟩

theorem median_mem (a b c : Sample) : median a b c ∈ [a, b, c] := by
  unfold median
  split_ifs <;> simp

/-- Settles O44: the median is bounded as two of its operands are, and what counts operands ignores their order. -/
theorem medianIsTheMiddleValue : Obligations.MedianIsTheMiddleValue := by
  intro a b c
  have hnat := median_toNat a b c
  refine ⟨median a b c, exec_medianOfThree_eq a b c, median_mem a b c, (median_le_iff a b c _).mp (BitVec.le_refl _),
    (le_median_iff a b c _).mp (BitVec.le_refl _), ?sum, fun x y z s hperm => ?perm, ?least, ?greatest,
    fun lo hi h => median_mem_interval h, ?outlier⟩
  case sum => omega
  case perm => rw [exec_medianOfThree_eq, median_eq_of_perm hperm]
  case least => omega
  case greatest => omega
  case outlier =>
    rintro rfl rfl rfl
    rfl

/-- The interval from a shared value to itself holds both operands of that value. -/
theorem median_self_left (x y : Sample) : median x x y = x := by
  obtain ⟨hlo, hhi⟩ : x ≤ median x x y ∧ median x x y ≤ x := median_mem_interval (by simp [List.countP_cons])
  exact BitVec.le_antisymm hhi hlo

/-- Settles O45: the other two arrangements are permutations of the first. -/
theorem medianTiesGiveTheSharedValue : Obligations.MedianTiesGiveTheSharedValue := by
  intro x y s
  have hxyx : median x y x = median x x y := median_eq_of_perm (.cons x (.swap x y []))
  have hyxx : median y x x = median x x y := median_eq_of_perm (List.perm_append_comm (l₁ := [y]) (l₂ := [x, x]))
  simp only [exec_medianOfThree_eq, hxyx, hyxx, median_self_left, and_self]

/-! ### The rolling window (43_sample_filter.md R164) -/

/-- Settles O46, with the slots of the new window from `set_get?` and the new cursor from `advance_eq`. -/
theorem rollingStoreWritesTheCursorSlot : Obligations.RollingStoreWritesTheCursorSlot := by
  intro v s h
  refine ⟨s.swin.set s.wcur.toNat v, ?_, fun k => set_get? s.swin s.wcur.toNat k v h⟩
  rw [exec_rollingStore_of_wcur_le v h, advance_eq s.wcur h]

/-! ### The average (43_sample_filter.md R166, R167) -/

theorem nonzeroCount_eq_countP (w : Triple Sample) : nonzeroCount w = [w.s0, w.s1, w.s2].countP (· ≠ 0) := by
  simp only [nonzeroCount, nonzero, List.countP_cons, List.countP_nil, decide_eq_true_eq, ite_not]
  omega

theorem nonzeroCount_eq_zero_iff (w : Triple Sample) : nonzeroCount w = 0 ↔ w = ⟨0, 0, 0⟩ := by
  obtain ⟨x, y, z⟩ := w
  simp [nonzeroCount, nonzero, and_assoc]

/-- With no nonzero slot the quotient by 0 is 0, as the average is. -/
theorem average_toNat (w : Triple Sample) :
    (average w).toNat = (w.s0.toNat + w.s1.toNat + w.s2.toNat) / nonzeroCount w := by
  rcases average_spec w with ⟨havg, hcount⟩ | ⟨-, havg⟩
  · rw [havg, hcount, Nat.div_zero]
    rfl
  · exact havg

theorem average_eq_zero_of_all_zero {w : Triple Sample} (h : w = ⟨0, 0, 0⟩) : average w = 0 := by
  rw [h]
  rfl

/-- A lower bound of the nonzero slots is a lower bound of the average. -/
theorem le_average {w : Triple Sample} {lo : Nat} (hw : w ≠ ⟨0, 0, 0⟩)
    (hlo : ∀ x ∈ [w.s0, w.s1, w.s2], x ≠ 0 → lo ≤ x.toNat) : lo ≤ (average w).toNat := by
  have hpos : 0 < nonzeroCount w := Nat.pos_of_ne_zero (mt (nonzeroCount_eq_zero_iff w).mp hw)
  have hslot : ∀ x ∈ [w.s0, w.s1, w.s2], lo * nonzero x ≤ x.toNat := fun x hx => by
    rcases nonzero_cases x with ⟨-, hcount, -⟩ | ⟨hne, hcount, -⟩
    · rw [hcount, Nat.mul_zero]
      exact Nat.zero_le _
    · rw [hcount, Nat.mul_one]
      exact hlo x hx hne
  rw [average_toNat, Nat.le_div_iff_mul_le hpos, nonzeroCount, Nat.mul_add, Nat.mul_add]
  exact Nat.add_le_add (Nat.add_le_add (hslot _ (by simp)) (hslot _ (by simp))) (hslot _ (by simp))

/-- An upper bound of the slots is an upper bound of the average. -/
theorem average_le {w : Triple Sample} {hi : Nat} (hhi : ∀ x ∈ [w.s0, w.s1, w.s2], x.toNat ≤ hi) :
    (average w).toNat ≤ hi := by
  have hslot : ∀ x ∈ [w.s0, w.s1, w.s2], x.toNat ≤ nonzero x * hi := fun x hx => by
    rcases nonzero_cases x with ⟨-, -, hzero⟩ | ⟨-, hcount, -⟩
    · rw [hzero]
      exact Nat.zero_le _
    · rw [hcount, Nat.one_mul]
      exact hhi x hx
  rw [average_toNat]
  refine Nat.div_le_of_le_mul ?_
  rw [nonzeroCount, Nat.add_mul, Nat.add_mul]
  exact Nat.add_le_add (Nat.add_le_add (hslot _ (by simp)) (hslot _ (by simp))) (hslot _ (by simp))

/-- A nonzero sample is at least 1, so the average of a window that holds one is too (43_sample_filter.md R167 (a)). -/
theorem average_eq_zero_iff (w : Triple Sample) : average w = 0 ↔ w = ⟨0, 0, 0⟩ := by
  refine ⟨fun h => by_contra fun hw => ?_, average_eq_zero_of_all_zero⟩
  have hone : 1 ≤ (average w).toNat := le_average hw fun x _ hx => by
    rcases nonzero_cases x with ⟨hzero, -⟩ | ⟨-, -, hpos, -⟩
    · exact absurd hzero hx
    · exact hpos
  rw [h] at hone
  exact absurd hone (by decide)

/-- Settles O47: the exact quotient of `average_toNat`, with the count in the statement's words. -/
theorem rollingAverageSkipsZeros : Obligations.RollingAverageSkipsZeros := fun s =>
  ⟨average s.swin, exec_rollingAverage_eq s, average_eq_zero_of_all_zero, fun _ => by
    rw [average_toNat, nonzeroCount_eq_countP]⟩

/-- Settles O48: RES is the average of the window, whose bounds are `le_average` and `average_le`. -/
theorem rollingAverageBounds : Obligations.RollingAverageBounds := by
  intro s t h
  obtain rfl : { s with res := average s.swin } = t := by
    rw [exec_rollingAverage_eq] at h
    injection h
  refine ⟨average_eq_zero_iff s.swin, fun hw => ?_, fun lo hi hw hlo hhi => ⟨le_average hw hlo, average_le hhi⟩⟩
  change average s.swin = 9
  rw [hw]
  rfl

/-- Settles O50, from the median and the average of the fixed values. -/
theorem filterExamples : Obligations.FilterExamples := by
  intro s
  have hdistinct : median 5 1 9 = 5 := by decide
  have htie : median 3 3 7 = 3 := median_self_left 3 7
  have hzero : average ⟨0, 0, 0⟩ = 0 := average_eq_zero_of_all_zero rfl
  have hskip : average ⟨0, 5, 10⟩ = 7 := by decide
  simp only [exec_medianOfThree_eq, exec_rollingAverage_eq, hdistinct, htie, hzero, hskip, and_self]

/-! ### Three stores in a row (43_sample_filter.md R165) -/

/-- Neither the sum of the slots nor the count of the nonzero ones depends on their order. -/
theorem average_eq_of_perm {w w' : Triple Sample} (h : [w'.s0, w'.s1, w'.s2].Perm [w.s0, w.s1, w.s2]) :
    average w' = average w := by
  have hsum := (h.map BitVec.toNat).sum_eq
  simp only [List.map_cons, List.map_nil, List.sum_cons, List.sum_nil, Nat.add_zero, ← Nat.add_assoc] at hsum
  apply BitVec.eq_of_toNat_eq
  rw [average_toNat, average_toNat, nonzeroCount_eq_countP, nonzeroCount_eq_countP, h.countP_eq, hsum]

/-- The window after three stores that begin at the cursor `c`. -/
def storeThree (w : Triple Sample) (c : Counter) (x y z : Sample) : Triple Sample :=
  ((w.set c.toNat x).set (advance c).toNat y).set (advance (advance c)).toNat z

/-- The cursor visits each slot once, so the new window is a rotation of the values stored. -/
theorem storeThree_eq (w : Triple Sample) {c : Counter} (h : c.toNat ≤ 2) (x y z : Sample) :
    storeThree w c x y z = if c = 0 then ⟨x, y, z⟩ else if c = 1 then ⟨z, x, y⟩ else ⟨y, z, x⟩ := by
  obtain rfl | rfl | rfl : c = 0 ∨ c = 1 ∨ c = 2 := by
    revert c
    decide
  · rfl
  · rfl
  · rfl

theorem average_storeThree (w : Triple Sample) {c : Counter} (h : c.toNat ≤ 2) (x y z : Sample) :
    average (storeThree w c x y z) = average ⟨x, y, z⟩ := by
  rw [storeThree_eq w h]
  split
  · rfl
  split
  · exact average_eq_of_perm (List.perm_append_comm (l₁ := [z]) (l₂ := [x, y]))
  · exact average_eq_of_perm (List.perm_append_comm (l₁ := [y, z]) (l₂ := [x]))

theorem execAll_rollingStore_cons {s : State} (v : Sample) (is : List Instr) (h : s.wcur.toNat ≤ 2) :
    execAll (.rollingStore v :: is) s =
      execAll is { s with swin := s.swin.set s.wcur.toNat v, wcur := advance s.wcur } := by
  rw [execAll, exec_rollingStore_of_wcur_le v h]

/-- Three stores and an average answer the average of the values stored, with the cursor back at its place. -/
theorem execAll_threeStores_average {s : State} (x y z : Sample) (h : s.wcur.toNat ≤ 2) :
    execAll [.rollingStore x, .rollingStore y, .rollingStore z, .rollingAverage] s =
      .next { s with swin := storeThree s.swin s.wcur x y z, res := average ⟨x, y, z⟩ } := by
  rw [execAll_rollingStore_cons x _ h, execAll_rollingStore_cons y _ (advance_le _),
    execAll_rollingStore_cons z _ (advance_le _), execAll, exec_rollingAverage_eq]
  simp only [execAll, advance_advance_advance s.wcur h, ← average_storeThree s.swin h x y z, storeThree]

/-- Settles O49: the old window is overwritten, and the average of the new one does not depend on its order. -/
theorem averageAfterThreeStores : Obligations.AverageAfterThreeStores := by
  intro s s' x y z x' y' z' h h' hperm
  exact ⟨_, _, execAll_threeStores_average x y z h, execAll_threeStores_average x' y' z' h', rfl,
    average_eq_of_perm hperm⟩

end Sys2Proof.Machine
end

section
/-! Proofs of the statements about exceptions (60_exceptions.md). First that an operation and a step cannot stop in a
legal state, then that a run of any length cannot. -/

namespace Sys2Proof.Machine

/-! ### Progress (60_exceptions.md R180) -/

/-- Every operation completes in a legal state. Two need the legality: `scan_tick` needs a legal slot at SCAN, and
`rolling_store` a slot at WCUR. -/
theorem exists_exec_eq_next {s : State} (h : s.Legal) (i : Instr) : ∃ t, exec i s = .next t := by
  cases i with
  | parseText text => exact ⟨_, rfl⟩
  | renderInt v m => exact ⟨_, rfl⟩
  | setDecimalPoint p => exact ⟨_, exec_setDecimalPoint_eq p s⟩
  | scanTick =>
    obtain ⟨t, hexec, -⟩ := exec_scanTick_of_state_legal h
    exact ⟨t, hexec⟩
  | medianOfThree a b c => exact ⟨_, exec_medianOfThree_eq a b c s⟩
  | rollingStore v =>
    obtain ⟨-, -, hwcur, -⟩ := h
    exact ⟨_, exec_rollingStore_of_wcur_le v hwcur⟩
  | rollingAverage => exact ⟨_, exec_rollingAverage_eq s⟩

/-- Every step from a legal state answers a next state: an operation runs on the state with its bytes accepted, which is
legal, and the three other kinds of step answer outright. -/
theorem exists_step_eq_next {s : State} (h : s.Legal) : ∃ t, step s = .next t := by
  rcases step_cases s with ⟨es, -, he⟩ | ⟨i, rest, -, he⟩ | ⟨op, rest, -, he⟩ | ⟨-, he⟩
  · exact ⟨_, he⟩
  · rw [he]
    exact exists_exec_eq_next (accepted_legal h rest) i
  · exact ⟨_, he⟩
  · exact ⟨_, he⟩

/-- Settles O6, operation by operation, and for the step by its four kinds. -/
theorem legalStatesNeverStop : Obligations.LegalStatesNeverStop :=
  fun _ hs => ⟨exists_exec_eq_next hs, exists_step_eq_next hs⟩

/-! ### Runs (70_reset_and_hazards.md R215) -/

/-- Settles O7, by induction on the number of steps: the first step answers a next state, which is legal by O5, and the
rest of the run starts there. -/
theorem runsNeverStopAndStayLegal : Obligations.RunsNeverStopAndStayLegal := by
  intro k
  induction k with
  | zero => exact fun s hs => ⟨s, rfl, hs⟩
  | succ k ih =>
    intro s hs
    obtain ⟨m, hstep⟩ := exists_step_eq_next hs
    rw [run_succ_of_next hstep]
    exact ih m (everyStepKeepsTheStateLegal s m hs hstep)

end Sys2Proof.Machine
end

section
/-! Proofs of the statements about reset and the hazards (70_reset_and_hazards.md). First the reset registers, then a
step that meets an `rst`, the display before the first tick, and the restart of the scan. -/

namespace Sys2Proof.Machine

/-! ### The reset state (70_reset_and_hazards.md R201) -/

/-- Three equal slots read alike. -/
theorem Triple.get?_fill {α : Type} (v : α) (i : Fin 3) : (Triple.fill v).get? i.val = some v := by
  match i with
  | 0 | 1 | 2 => rfl

/-- Settles O1, row by row: DB and SWIN hold one value in all three slots. -/
theorem resetStateHoldsSpecValues : Obligations.ResetStateHoldsSpecValues := by
  refine ⟨fun cfg => ⟨?db, rfl, ?swin, rfl, rfl, rfl, rfl, rfl⟩, rfl, ?packed⟩
  case db => exact Triple.get?_fill blankSlot
  case swin => exact Triple.get?_fill 0
  case packed => decide

/-! ### A step that meets an `rst` (70_reset_and_hazards.md R200) -/

/-- An `rst` presented next is taken, whatever the port holds (60_exceptions.md R184). -/
theorem step_of_rst {s : State} {es : List HostEvent} (h : s.hostIn = .rst :: es) : step s = .next (s.takeReset es) := by
  simp only [step, h]

/-- Bytes before an `rst` that complete no command are held in the port, and the `rst` stays presented
(30_encoding.md R72). -/
theorem step_of_decode_incomplete_before_rst {s : State} {bs : List Byte} {es : List HostEvent} (hne : bs ≠ [])
    (h : s.hostIn = presents bs ++ .rst :: es) (hdec : decode (s.port ++ bs) = .incomplete) :
    step s = .next { s with port := s.port ++ bs, hostIn := .rst :: es } := by
  have hoff : bs ++ offered (.rst :: es) = bs := List.append_nil bs
  have hwait : s.awaitRest = { s with port := s.port ++ bs, hostIn := .rst :: es } := by
    rw [State.awaitRest, h, offered_presents_append, afterOffered_presents_append, hoff]
    rfl
  rw [step_presents s bs _ hne h, hoff]
  simp only [hdec, hwait]

/-- Settles O3: the bytes before the `rst` are held in the port alone, so the `rst` then finds the configuration and the
record of ticks as they were. -/
theorem rstTakesTheResetState : Obligations.RstTakesTheResetState :=
  ⟨fun _ _ => step_of_rst, fun _ b bs _ h hdec =>
    ⟨_, step_of_decode_incomplete_before_rst (List.cons_ne_nil b bs) h hdec, rfl, step_of_rst rfl⟩⟩

/-! ### The display before the first tick (70_reset_and_hazards.md R202) -/

/-- Only `scan_tick` changes the outputs or records a tick (10_state.md R33). -/
theorem exec_out_trace_of_ne_scanTick {i : Instr} {s t : State} (hi : i ≠ .scanTick) (h : exec i s = .next t) :
    t.out = s.out ∧ t.trace = s.trace := by
  rcases exec_cases h with ⟨_, _, rfl, -, -⟩ | ⟨htick, -⟩ | ⟨_, rfl⟩ | ⟨_, -, -, rfl⟩
  · exact ⟨rfl, rfl⟩
  · exact absurd htick hi
  · exact ⟨rfl, rfl⟩
  · exact ⟨rfl, rfl⟩

/-- A sequence that completes completes its first operation, and then the others from there. -/
theorem execAll_cons_eq_next {i : Instr} {is : List Instr} {s t : State} (h : execAll (i :: is) s = .next t) :
    ∃ m, exec i s = .next m ∧ execAll is m = .next t := by
  rw [execAll] at h
  cases hexec : exec i s with
  | next m =>
    rw [hexec] at h
    exact ⟨m, rfl, h⟩
  | fault r => rw [hexec] at h; cases h
  | refused r => rw [hexec] at h; cases h

/-- Without a `scan_tick`, a sequence of operations keeps the outputs and the record of ticks, from any state. -/
theorem execAll_out_trace_of_scanTick_notMem {is : List Instr} {s t : State} (his : .scanTick ∉ is)
    (h : execAll is s = .next t) : t.out = s.out ∧ t.trace = s.trace := by
  induction is generalizing s with
  | nil =>
    cases h
    exact ⟨rfl, rfl⟩
  | cons i is ih =>
    obtain ⟨hi, his⟩ := List.ne_and_not_mem_of_not_mem_cons his
    obtain ⟨m, hfirst, hrest⟩ := execAll_cons_eq_next h
    obtain ⟨hout, htrace⟩ := ih his hrest
    obtain ⟨hout', htrace'⟩ := exec_out_trace_of_ne_scanTick (Ne.symm hi) hfirst
    exact ⟨hout.trans hout', htrace.trans htrace'⟩

/-- Settles O11: the outputs and the record are still those of the reset state. -/
theorem displayIsDarkUntilTheFirstTick : Obligations.DisplayIsDarkUntilTheFirstTick :=
  fun _ _ _ => execAll_out_trace_of_scanTick_notMem

/-! ### The restart of the scan (70_reset_and_hazards.md R207) -/

/-- The meter step makes no nonzero value zero: it divides by 10 above 999 only (41_formatter.md R118). -/
theorem meterScale_fst_ne_zero {x : Int} (hx : x ≠ 0) (m : Bool) : (meterScale x m).1 ≠ 0 := by
  unfold meterScale
  split
  · rename_i hscale
    have hgt : 999 < x := by
      obtain ⟨-, hgt⟩ := Bool.and_eq_true_iff.mp hscale
      exact of_decide_eq_true hgt
    change x / 10 ≠ 0
    omega
  · exact hx

/-- `render_int` of a nonzero value resets SCAN and keeps the outputs: its zero case is not reached
(41_formatter.md R120, R125). -/
theorem exec_renderInt_scan_out {v : Value} (hv : v ≠ 0) {m : Bool} {s t : State}
    (h : exec (.renderInt v m) s = .next t) : t.scan = 0 ∧ t.out = s.out := by
  have hne : (meterScale (valueOf v) m).1 ≠ 0 := meterScale_fst_ne_zero (BitVec.toInt_ne.mpr hv) m
  obtain rfl : s.showInt (valueOf v) m = t := Host.Outcome.next.inj h
  rcases showInt_cases s (valueOf v) m with he | ⟨-, hzero⟩ | he
  · rw [he]
    exact ⟨s.showText_scan _, s.showText_out _⟩
  · exact absurd hzero hne
  · rw [he]
    exact ⟨rfl, rfl⟩

/-- With SCAN = 0 a tick from a legal state shows digit 0, and SCAN is then 1 (42_scanner.md R146, R147). -/
theorem exec_scanTick_of_scan_zero {s : State} (h : s.Legal) (hscan : s.scan = 0) :
    ∃ w, exec .scanTick s = .next w ∧ w.out.anode = 0b001 ∧ w.scan = 1 := by
  obtain ⟨w, hexec, -, hnext, hanode⟩ := exec_scanTick_of_state_legal h
  rw [hscan] at hnext hanode
  exact ⟨w, hexec, hanode, hnext⟩

/-- Settles O39: the two rewrites leave SCAN = 0 in a legal state, from which the tick shows digit 0; the two other
operations write DB alone. -/
theorem rewriteRestartsTheScan : Obligations.RewriteRestartsTheScan := by
  intro i s t hs h
  have ht : t.Legal := exec_legal hs h
  constructor
  · rintro (⟨text, rfl⟩ | ⟨v, m, hv, rfl⟩)
    · obtain rfl : s.showText text = t := Host.Outcome.next.inj h
      exact ⟨s.showText_out text, exec_scanTick_of_scan_zero ht (s.showText_scan text)⟩
    · obtain ⟨hscan, hout⟩ := exec_renderInt_scan_out hv h
      exact ⟨hout, exec_scanTick_of_scan_zero ht hscan⟩
  · rintro (⟨m, rfl⟩ | ⟨p, rfl⟩)
    · rw [exec_renderInt_zero rfl] at h
      cases h
      rfl
    · rw [exec_setDecimalPoint_eq] at h
      cases h
      rfl

end Sys2Proof.Machine
end
